-- ==== Sys2Proof/Word.lean ====
section
/-!
DEFINITION. The words of the block: bytes, the 4-bit registers, and the two port widths of spec/20_memory.md R33.
-/

namespace Sys2Proof

/-- An 8-bit unsigned byte: a buffer slot, an inbound byte, a byte of a report (R7, R33). -/
abbrev Byte := BitVec 8

/-- A 4-bit unsigned number: `ind`, `len`, and a header's length field (R7, R43, R51). -/
abbrev Nibble := BitVec 4

/-- The 16-bit bit-length port (R20, R33). -/
abbrev Half := BitVec 16

/-- The 32-bit value port (R20, R33). -/
abbrev Word := BitVec 32

end Sys2Proof
end

