-- ==== Sys2Proof/Config.lean ====
section
/-!
DEFINITION. The parameters of spec/00_scope.md R6: those it fixes, those it leaves open, and the environment's free answers.
-/

namespace Sys2Proof

/-- The two kinds of step of the poll loop (R88). -/
inductive StepKind where
  | byteStep
  | rfPoll
  deriving DecidableEq, Repr, Inhabited

namespace Config

/-- `CAPACITY` (R6): assembly-buffer slots. -/
def capacity : Nat := 15

/-- `HDR_LO` (R6): the lowest header byte. -/
def hdrLo : Nat := 64

/-- `HDR_HI` (R6): one above the highest header byte. -/
def hdrHi : Nat := 80

/-- `LEN_MASK` (R6): `len = b & LEN_MASK`. -/
def lenMask : Byte := 15

/-- `MIN_DISPATCH_LEN` (R6): the dispatcher acts only on frames of this length or longer. -/
def minDispatchLen : Nat := 3

/-- `OP_TRANSMIT` (R6). -/
def opTransmit : Byte := 0x01

/-- `OP_SET_RX` (R6). -/
def opSetRx : Byte := 0x02

/-- `TRANSMIT_LEN` (R6): the only length at which the transmit opcode acts. -/
def transmitLen : Nat := 7

/-- `REPORT_LEN` (R6): bytes of an outbound report. -/
def reportLen : Nat := 6

/-- `REPORT_TERM` (R6, R52): the newline that ends a report.
PRESUMED (the spec's D7 marks the number as general knowledge); unsafe, log 2. -/
def reportTerm : Byte := 0x0A

/-- `REPORT_TAG` (R6, D6, I1): OPEN, so it has no body and a claim holds for every tag. Safe, log 2. -/
opaque reportTag : Byte

/-- `RX_ENABLED_AT_RESET` (R6, D5, I2): OPEN; `none` means unknown. Safe, log 3. -/
opaque rxEnabledAtReset : Option Bool

/-- The free answers to `HostRead` once `env.host` lists none (R105, I5); DESIGN CHOICE, safe, log 4. -/
opaque freeHostRead : Nat → Option Byte

/-- The free answers to `RfIsAvailable` once `env.available` lists none (R103, I3); DESIGN CHOICE, safe, log 4. -/
opaque freeAvailable : Nat → Bool

/-- The free answers to `RfGetValue` once `env.value` lists none (R103, I3); DESIGN CHOICE, safe, log 4. -/
opaque freeValue : Nat → Word

/-- The free order of steps once `env.schedule` lists none (R89, I8); DESIGN CHOICE, safe, log 5. -/
opaque freeStepKind : Nat → StepKind

/-- Whether an `RfSend` returns, once `env.sendReturns` lists nothing (R104, I7); DESIGN CHOICE, safe, log 6. -/
opaque freeSendReturns : Nat → Bool

end Config

end Sys2Proof
end

