-- ==== Sys2Proof/Syntax.lean ====
section
/-!
DEFINITION. The instructions: one constructor per row of spec/opcode_table.json, in the table's order.
-/

namespace Sys2Proof

/-- One constructor per row of the opcode table.
The first eight are byte-level classes (R53), the next five frame-level classes (R55), the last two the RF-to-host path. -/
inductive Instr where
  /-- HEADER `0100LLLL`: open a frame of `L` frame bytes (R63). `L = 0` is the row EMPTY_FRAME; DEDUCED, safe, log 9. -/
  | header (len : Nibble)
  /-- EMPTY_FRAME `01000000`: a header of length 0 (R63). -/
  | emptyFrame
  /-- DISCARD `00xxxxxx`: 0x00 to 0x3F while IDLE (R64, R54). -/
  | discardLow (x : BitVec 6)
  /-- DISCARD `0101xxxx`: 0x50 to 0x5F while IDLE (R64, R54). -/
  | discardFifties (x : BitVec 4)
  /-- DISCARD `011xxxxx`: 0x60 to 0x7F while IDLE (R64, R54). -/
  | discardSixties (x : BitVec 5)
  /-- DISCARD `1xxxxxxx`: 0x80 to 0xFF while IDLE (R64, R54). -/
  | discardHigh (x : BitVec 7)
  /-- PAYLOAD `bbbbbbbb`: any byte while ACCUMULATING (R65). -/
  | payload (b : Byte)
  /-- NO_BYTE: `HostRead` answers `none` (R62). -/
  | noByte
  /-- TRANSMIT: opcode 1, seven frame bytes (R46, R74). -/
  | transmit (value : Word) (bits : Half)
  /-- TRANSMIT_BADLEN: opcode 1 at another length; `args` are `F[1..N-1]` (R55, R74). -/
  | transmitBadLen (args : List Byte)
  /-- SET_RX: opcode 2; `flag` is `F[1]`, `padding` is `F[2..N-1]` (R47, R76). -/
  | setRx (flag : Byte) (padding : List Byte)
  /-- IGNORED: an opcode other than 1 and 2; `args` are `F[1..N-1]` (R78). -/
  | ignored (opcode : Byte) (args : List Byte)
  /-- SHORT: one or two frame bytes; `args` holds `F[1]` where there is one (R73). -/
  | short (first : Byte) (args : List Byte)
  /-- RF_POLL: the poll loop's RF step (R84). -/
  | rfPoll
  /-- RF_REPORT: the six bytes that report `v` to the host (R52). -/
  | rfReport (v : Word)
  deriving DecidableEq, Repr

end Sys2Proof
end

