-- ==== Sys2Proof/Machine/State.lean ====
section
/-!
DEFINITION. The machine's state as plain data (spec/10_state.md R7, R20 to R23), the reasons it can stop, and the state after reset.
-/

namespace Sys2Proof.Machine

/-- The one memory: the assembly buffer (R24), as (slot, byte) pairs with rising slots; a slot not listed holds 0x00. -/
abbrev Memory := List Host.Cell

/-- The four silent rejections of R94, each with the value R94 says is recorded. -/
inductive DropReason where
  /-- Code 1: a byte outside the header range while IDLE (R64); records the byte. -/
  | hdrOutOfRange (b : Byte)
  /-- Code 2: a frame of one or two bytes (R73); records its length. -/
  | shortFrame (n : Nibble)
  /-- Code 3: opcode 1 at a length other than 7 (R74); records the length. -/
  | transmitBadLength (n : Nibble)
  /-- Code 4: an opcode that is neither 1 nor 2 (R78); records the opcode. -/
  | unknownOpcode (op : Byte)
  deriving DecidableEq, Repr

/-- The event alphabet: the eight port transactions of R20, queries with their answers, then the two model-only
observations of R21, which are on no port. One list keeps both in order; DESIGN CHOICE, safe, log 12. -/
inductive Event where
  | hostRead (answer : Option Byte)
  | hostWrite (bytes : List Byte)
  | rfSend (value : Word) (bits : Half)
  | rfEnable
  | rfDisable
  | rfIsAvailable (answer : Bool)
  | rfGetValue (answer : Word)
  | rfResetAvailable
  | dispatch (n : Nibble) (bytes : List Byte)
  | drop (reason : DropReason)
  deriving DecidableEq, Repr

/-- Whether the poll loop is between steps, or inside an `RfSend` that does not return (I7, R118).
DESIGN CHOICE, safe, log 6. -/
inductive LoopStatus where
  | polling
  | sendPending
  deriving DecidableEq, Repr

/-- The environment's answers to one query: those listed come first; after them the free answers of Config,
numbered by how many have been drawn. The MODEL's own, not the spec's; log 4. -/
structure Source (α : Type) where
  listed : List α
  drawn : Nat
  deriving DecidableEq, Repr

/-- The environment of R23 and R91: the order of steps, and the answers to every query.
`sendReturns` says of each `RfSend` whether it ever returns (I7). The MODEL's own, not the spec's; log 4, log 5, log 6. -/
structure Environment where
  schedule : Source StepKind
  host : Source (Option Byte)
  available : Source Bool
  value : Source Word
  sendReturns : Source Bool
  deriving DecidableEq, Repr

/-- The whole state: the three registers of R7, the trace of R20 to R22, the step in progress (I7), the environment. -/
structure State where
  ind : Nibble
  len : Nibble
  buf : Memory
  trace : List Event
  loop : LoopStatus
  env : Environment
  deriving DecidableEq, Repr

/-- The block itself has no fault (R93, R98). -/
inductive Fault where
  /-- Raised by PAYLOAD's meaning at `ind` = 15: slot 15 does not exist (R24). No step reaches it (R26). Safe, log 8. -/
  | slotOutOfRange
  deriving DecidableEq, Repr

/-- Why there is no meaning for what stands next. -/
inductive Refusal where
  /-- Raised by an arm of `exec` without a meaning; none is left. Safe. -/
  | notModelled (mnemonic : String)
  /-- Raised by the fetch of a byte in a state with `ind > len`, which R9, D24 and I11 do not admit. Safe, log 7. -/
  | readerStateNotAdmitted
  deriving DecidableEq, Repr

/-- An environment that has answered nothing and lists nothing. -/
def Environment.fresh : Environment where
  schedule := ⟨[], 0⟩
  host := ⟨[], 0⟩
  available := ⟨[], 0⟩
  value := ⟨[], 0⟩
  sendReturns := ⟨[], 0⟩

/-- The state after a power cycle (R22, R110): IDLE, every slot 0x00, the trace empty. Log 1 for the decided values. -/
def State.reset : State where
  ind := 0
  len := 0
  buf := []
  trace := []
  loop := .polling
  env := Environment.fresh

end Sys2Proof.Machine
end

