-- ==== Sys2Proof/Machine/Ops.lean ====
section
/-!
DEFINITION. The named operations over the registers, the buffer, the trace and the environment's answers.
The block takes no exception (spec/60_exceptions.md R93, R98); what it shares instead is the silent drop of R94, `dropInput`.
-/

namespace Sys2Proof.Machine

/-- What a slot that is not listed holds: the cleared value of R13, R22 and R66. -/
def clearedSlot : Byte := 0x00#8

/-- The byte in slot `a`. -/
def Memory.byteAt (m : Memory) (a : Nat) : Byte :=
  match m with
  | [] => clearedSlot
  | (k, v) :: rest => if k = a then v else Memory.byteAt rest a

/-- Store a byte in slot `a`, keeping the canonical form. -/
def Memory.store (m : Memory) (a : Nat) (b : Byte) : Memory :=
  match m with
  | [] => if b = clearedSlot then [] else [(a, b)]
  | (k, v) :: rest =>
    if a < k then (if b = clearedSlot then (k, v) :: rest else (a, b) :: (k, v) :: rest)
    else if a = k then (if b = clearedSlot then rest else (a, b) :: rest)
    else (k, v) :: Memory.store rest a b

/-- The canonical form: slots 0 to 14 (R24), strictly rising, none listed that holds the cleared value. -/
def Memory.wf : Memory → Bool
  | [] => true
  | (k, v) :: rest =>
    decide (k < Config.capacity) && decide (v ≠ clearedSlot) && rest.all (fun c => decide (k < c.1)) && Memory.wf rest

/-- `ind <- v` (R8). -/
def State.withInd (s : State) (v : Nibble) : State := { s with ind := v }

/-- `len <- v` (R8). -/
def State.withLen (s : State) (v : Nibble) : State := { s with len := v }

/-- Replace the buffer's contents. -/
def State.withBuf (s : State) (m : Memory) : State := { s with buf := m }

/-- Mark the step in progress. -/
def State.withLoop (s : State) (l : LoopStatus) : State := { s with loop := l }

/-- Replace the environment. -/
def State.withEnv (s : State) (e : Environment) : State := { s with env := e }

/-- `emit E`: append an event to the trace (R20, R37). -/
def State.emit (s : State) (e : Event) : State := { s with trace := s.trace ++ [e] }

/-- `MemRead(i, 1)`: the byte in one of the fifteen slots (R24). -/
def bufRead (s : State) (i : Fin 15) : Byte := Memory.byteAt s.buf i.val

/-- `MemWrite(i, 1, b)`: fails at a slot that does not exist (R24). -/
def bufWrite (s : State) (i : Nat) (b : Byte) : Option State :=
  if i < Config.capacity then some (s.withBuf (Memory.store s.buf i b)) else none

/-- `buf[0..n-1]`, the frame bytes received (R66). -/
def frameBytes (s : State) (n : Nibble) : List Byte := (List.range n.toNat).map (Memory.byteAt s.buf)

/-- The reader's return to IDLE: `len <- 0`, `ind <- 0`, every slot cleared (R66). -/
def clearReader (s : State) : State := ((s.withLen 0).withInd 0).withBuf []

/-- `drop R`: record a silent rejection (R94, R95); no port and no register. -/
def dropInput (reason : DropReason) (s : State) : State := s.emit (.drop reason)

/-- The next answer of a source, and the source after it. -/
def Source.take {α : Type} (free : Nat → α) (q : Source α) : α × Source α :=
  match q.listed with
  | a :: rest => (a, { q with listed := rest })
  | [] => (free q.drawn, { q with drawn := q.drawn + 1 })

/-- Which step the poll loop takes next (R88, R89). -/
def takeStepKind (s : State) : StepKind × State :=
  let r := s.env.schedule.take Config.freeStepKind
  (r.1, s.withEnv { s.env with schedule := r.2 })

/-- `ask HostRead()` (R20, R59). -/
def askHostRead (s : State) : Option Byte × State :=
  let r := s.env.host.take Config.freeHostRead
  (r.1, (s.withEnv { s.env with host := r.2 }).emit (.hostRead r.1))

/-- `ask RfIsAvailable()` (R20, R84). -/
def askRfIsAvailable (s : State) : Bool × State :=
  let r := s.env.available.take Config.freeAvailable
  (r.1, (s.withEnv { s.env with available := r.2 }).emit (.rfIsAvailable r.1))

/-- `ask RfGetValue()` (R20, R84). -/
def askRfGetValue (s : State) : Word × State :=
  let r := s.env.value.take Config.freeValue
  (r.1, (s.withEnv { s.env with value := r.2 }).emit (.rfGetValue r.1))

/-- `emit RfSend(value, bits)`, and whether it returns (R74, R104, I7). -/
def issueRfSend (value : Word) (bits : Half) (s : State) : Bool × State :=
  let r := s.env.sendReturns.take Config.freeSendReturns
  (r.1, (s.withEnv { s.env with sendReturns := r.2 }).emit (.rfSend value bits))

end Sys2Proof.Machine
end

