-- ==== Sys2Proof/Machine/Flags.lean ====
section
/-!
DEFINITION. The block has no status flags and no condition codes (spec/10_state.md R14). What stands in their place is the
control state that R10 derives from `ind` and `len`, and the numbering of R94.
-/

namespace Sys2Proof.Machine

/-- The reader's control state, derived and never stored (R10); `none` where `ind > len`, which R9 excludes. -/
inductive ReaderMode where
  | idle
  | accumulating
  deriving DecidableEq, Repr

/-- R10's two definitions. -/
def readerMode (s : State) : Option ReaderMode :=
  if s.ind = s.len then some .idle else if s.ind < s.len then some .accumulating else none

/-- The drop codes of R94. -/
def DropReason.code : DropReason → Nat
  | .hdrOutOfRange _ => 1
  | .shortFrame _ => 2
  | .transmitBadLength _ => 3
  | .unknownOpcode _ => 4

end Sys2Proof.Machine
end

