-- ==== Sys2Proof/Machine/Operands.lean ====
section
/-!
DEFINITION. The operand forms of spec/30_encoding.md section 3 (R48 to R51), their inverses, and the report of R52.
-/

namespace Sys2Proof

/-- TRANSMIT's value: `F[1] ++ F[2] ++ F[3] ++ F[4]`, big-endian (R48, R29). -/
def assembleValue (f1 f2 f3 f4 : Byte) : Word := f1 ++ f2 ++ f3 ++ f4

/-- TRANSMIT's bit-length: `F[5] ++ F[6]`, big-endian (R49, R29). -/
def assembleBits (f5 f6 : Byte) : Half := f5 ++ f6

/-- SET_RX's operand: on iff the flag byte is not zero (R50). -/
def flagOn (flag : Byte) : Bool := flag != 0x00#8

/-- Bits 7:4 of a byte, the tag of a header (R43). -/
def tagOf (b : Byte) : Nibble := b.extractLsb' 4 4

/-- A header byte is one whose bits 7:4 are `0100` (R43). -/
def isHeader (b : Byte) : Bool := tagOf b == 0b0100#4

/-- A header's length operand `H & 15 = H[3:0]` (R51). -/
def lengthOf (b : Byte) : Nibble := b.extractLsb' 0 4

/-- The header byte that announces `n` frame bytes (R43, R58). -/
def headerByte (n : Nibble) : Byte := 0b0100#4 ++ n

/-- Byte `k` of a value, byte 0 the least significant (R52's `v[7:0]`, `v[15:8]`, …). -/
def valueByte (v : Word) (k : Nat) : Byte := v.extractLsb' (8 * k) 8

/-- The six bytes of a report: tag, value least significant byte first, newline (R52, R30). -/
def reportBytes (v : Word) : List Byte :=
  [Config.reportTag, valueByte v 0, valueByte v 1, valueByte v 2, valueByte v 3, Config.reportTerm]

/-- The frame bytes of a TRANSMIT (R46). -/
def transmitFrame (value : Word) (bits : Half) : List Byte :=
  [Config.opTransmit, valueByte value 3, valueByte value 2, valueByte value 1, valueByte value 0,
    bits.extractLsb' 8 8, bits.extractLsb' 0 8]

end Sys2Proof
end

