-- ==== Sys2Proof/Machine/Dispatcher.lean ====
section
/-!
DEFINITION. The Command Dispatcher and its actions (spec/41_dispatcher.md R72 to R78), and the meanings of the frame-level rows.
An action writes no register and no slot (R72): its state differs only in the trace, the environment, and the step in progress.
-/

namespace Sys2Proof.Machine

/-- The Transmit Action: `RfSend`, then `RfResetAvailable` once it has returned (R74).
An `RfSend` that does not return leaves the step unfinished (I7); DESIGN CHOICE, safe, log 6. -/
def transmitAction (value : Word) (bits : Half) (s : State) : State :=
  let sent := issueRfSend value bits s
  if sent.1 then sent.2.emit .rfResetAvailable else sent.2.withLoop .sendPending

/-- The Receiver-Mode Action: exactly one of `RfEnable` and `RfDisable`, whatever the mode was (R76, R77). -/
def receiverModeAction (on : Bool) (s : State) : State :=
  if on then s.emit .rfEnable else s.emit .rfDisable

/-- `Transmit(n)` of R74, its operands read from the buffer. -/
def transmitFromBuffer (n : Nibble) (s : State) : State :=
  if n.toNat ≠ Config.transmitLen then dropInput (.transmitBadLength n) s
  else transmitAction (assembleValue (bufRead s 1) (bufRead s 2) (bufRead s 3) (bufRead s 4))
    (assembleBits (bufRead s 5) (bufRead s 6)) s

/-- `SetRx()` of R76, its flag read from the buffer. -/
def setRxFromBuffer (s : State) : State := receiverModeAction (flagOn (bufRead s 1)) s

/-- `Dispatch(n)` of R72: the length before the opcode, then at most one action (R79, R97). -/
def dispatch (n : Nibble) (s : State) : State :=
  if n.toNat < Config.minDispatchLen then dropInput (.shortFrame n) s
  else if bufRead s 0 = Config.opTransmit then transmitFromBuffer n s
  else if bufRead s 0 = Config.opSetRx then setRxFromBuffer s
  else dropInput (.unknownOpcode (bufRead s 0)) s

/-- The length of a frame with `k` bytes after its opcode, as the 4-bit number the reader holds in `len`. -/
def lengthWithArgs (k : Nat) : Nibble := BitVec.ofNat 4 (k + 1)

/-- TRANSMIT (R74). -/
def execTransmit (value : Word) (bits : Half) (s : State) : Host.Outcome State Fault Refusal :=
  .next (transmitAction value bits s)

/-- TRANSMIT_BADLEN: "any other length is a silent no-op" (R74). -/
def execTransmitBadLen (args : List Byte) (s : State) : Host.Outcome State Fault Refusal :=
  .next (dropInput (.transmitBadLength (lengthWithArgs args.length)) s)

/-- SET_RX (R76); the padding is read by no rule. -/
def execSetRx (flag : Byte) (s : State) : Host.Outcome State Fault Refusal :=
  .next (receiverModeAction (flagOn flag) s)

/-- IGNORED (R78). -/
def execIgnored (opcode : Byte) (s : State) : Host.Outcome State Fault Refusal :=
  .next (dropInput (.unknownOpcode opcode) s)

/-- SHORT (R73); the bytes are not examined. -/
def execShort (args : List Byte) (s : State) : Host.Outcome State Fault Refusal :=
  .next (dropInput (.shortFrame (lengthWithArgs args.length)) s)

end Sys2Proof.Machine
end

