-- ==== Sys2Proof/Machine/FrameReader.lean ====
section
/-!
DEFINITION. The Frame Reader: the meanings of the byte-level rows (spec/40_frame_reader.md R62 to R66).
Each is the pseudocode of its rule; the test that selects it is the decoder's (R53, R59).
-/

namespace Sys2Proof.Machine

/-- `Complete()` of R66: hand the frame to the dispatcher, then return to IDLE.
If an `RfSend` of the dispatch does not return, neither does this (I7); DESIGN CHOICE, safe, log 6. -/
def complete (s : State) : State :=
  let done := dispatch s.len (s.emit (.dispatch s.len (frameBytes s s.len)))
  match done.loop with
  | .polling => clearReader done
  | .sendPending => done

/-- `Header(b)` of R63: `len <- b & 15`, `ind <- 0`; the buffer is not written. -/
def openFrame (n : Nibble) (s : State) : State := (s.withLen n).withInd 0

/-- HEADER (R63). -/
def execHeader (len : Nibble) (s : State) : Host.Outcome State Fault Refusal := .next (openFrame len s)

/-- EMPTY_FRAME: a header of length 0, which is not dispatched (R63, C5). -/
def execEmptyFrame (s : State) : Host.Outcome State Fault Refusal := .next (openFrame 0 s)

/-- DISCARD `00xxxxxx` (R64). -/
def execDiscardLow (x : BitVec 6) (s : State) : Host.Outcome State Fault Refusal :=
  .next (dropInput (.hdrOutOfRange (0b00#2 ++ x)) s)

/-- DISCARD `0101xxxx` (R64). -/
def execDiscardFifties (x : BitVec 4) (s : State) : Host.Outcome State Fault Refusal :=
  .next (dropInput (.hdrOutOfRange (0b0101#4 ++ x)) s)

/-- DISCARD `011xxxxx` (R64). -/
def execDiscardSixties (x : BitVec 5) (s : State) : Host.Outcome State Fault Refusal :=
  .next (dropInput (.hdrOutOfRange (0b011#3 ++ x)) s)

/-- DISCARD `1xxxxxxx` (R64). -/
def execDiscardHigh (x : BitVec 7) (s : State) : Host.Outcome State Fault Refusal :=
  .next (dropInput (.hdrOutOfRange (0b1#1 ++ x)) s)

/-- PAYLOAD (R65): store at `ind`, advance, and complete the frame when `ind` reaches `len`.
Slot 15 does not exist (R24), so `ind` = 15 faults; the decoder never selects PAYLOAD there (R26). Safe, log 8. -/
def execPayload (b : Byte) (s : State) : Host.Outcome State Fault Refusal :=
  match bufWrite s s.ind.toNat b with
  | none => .fault .slotOutOfRange
  | some stored =>
    let moved := stored.withInd (s.ind + 1)
    .next (if moved.ind = moved.len then complete moved else moved)

/-- NO_BYTE: nothing (R62). -/
def execNoByte (s : State) : Host.Outcome State Fault Refusal := .next s

end Sys2Proof.Machine
end

