-- ==== Sys2Proof/Machine/OutboundEncoder.lean ====
section
/-!
DEFINITION. The Outbound Encoder: RF_POLL and the report it writes (spec/42_outbound_encoder.md R84, spec/30_encoding.md R52).
-/

namespace Sys2Proof.Machine

/-- `emit HostWrite([REPORT_TAG, v[7:0], v[15:8], v[23:16], v[31:24], 0x0A])` (R84, R52). -/
def writeReport (v : Word) (s : State) : State := s.emit (.hostWrite (reportBytes v))

/-- RF_POLL in R84's order; the order of the write and the reset is the spec's decision D10, log 13. -/
def execRfPoll (s : State) : Host.Outcome State Fault Refusal :=
  let polled := askRfIsAvailable s
  if polled.1 then
    let read := askRfGetValue polled.2
    .next ((writeReport read.1 read.2).emit .rfResetAvailable)
  else .next polled.2

/-- RF_REPORT: the output of RF_POLL, by itself (R52). DEDUCED, safe, log 10. -/
def execRfReport (v : Word) (s : State) : Host.Outcome State Fault Refusal := .next (writeReport v s)

end Sys2Proof.Machine
end

