-- ==== Sys2Proof/Machine/Dispatch.lean ====
section
/-! DEFINITION. One arm per constructor of Instr, each one direct call of its meaning. -/

namespace Sys2Proof.Machine

def exec (i : Instr) (s : State) : Host.Outcome State Fault Refusal :=
  match i with
  | .header len => Sys2Proof.Machine.execHeader len s
  | .emptyFrame => Sys2Proof.Machine.execEmptyFrame s
  | .discardLow x => Sys2Proof.Machine.execDiscardLow x s
  | .discardFifties x => Sys2Proof.Machine.execDiscardFifties x s
  | .discardSixties x => Sys2Proof.Machine.execDiscardSixties x s
  | .discardHigh x => Sys2Proof.Machine.execDiscardHigh x s
  | .payload b => Sys2Proof.Machine.execPayload b s
  | .noByte => Sys2Proof.Machine.execNoByte s
  | .transmit value bits => Sys2Proof.Machine.execTransmit value bits s
  | .transmitBadLen args => Sys2Proof.Machine.execTransmitBadLen args s
  | .setRx flag _ => Sys2Proof.Machine.execSetRx flag s
  | .ignored opcode _ => Sys2Proof.Machine.execIgnored opcode s
  | .short _ args => Sys2Proof.Machine.execShort args s
  | .rfPoll => Sys2Proof.Machine.execRfPoll s
  | .rfReport v => Sys2Proof.Machine.execRfReport v s

end Sys2Proof.Machine
end

