-- ==== Sys2Proof/WellFormed.lean ====
section
/-!
DEFINITION. Which terms of `Instr` are instructions of the block: the conditions of spec/opcode_table.json that the constructors' types do not already say.
-/

namespace Sys2Proof

/-- The frame length `N` of a frame-level instruction (R45); 0 for the others, which are no frames. -/
def Instr.frameLength : Instr → Nat
  | .header _ => 0
  | .emptyFrame => 0
  | .discardLow _ => 0
  | .discardFifties _ => 0
  | .discardSixties _ => 0
  | .discardHigh _ => 0
  | .payload _ => 0
  | .noByte => 0
  | .transmit _ _ => Config.transmitLen
  | .transmitBadLen args => args.length + 1
  | .setRx _ padding => padding.length + 2
  | .ignored _ args => args.length + 1
  | .short _ args => args.length + 1
  | .rfPoll => 0
  | .rfReport _ => 0

/-- The lengths at which the dispatcher looks at the opcode: 3 to 15 (R55). -/
def dispatchable (n : Nat) : Bool :=
  decide (Config.minDispatchLen ≤ n) && decide (n ≤ Config.capacity)

/-- The conditions of the opcode table's rows, beyond what the operand types say. -/
def Instr.wellFormed : Instr → Bool
  | .header len => decide (len ≠ 0)
  | .emptyFrame => true
  | .discardLow _ => true
  | .discardFifties _ => true
  | .discardSixties _ => true
  | .discardHigh _ => true
  | .payload _ => true
  | .noByte => true
  | .transmit _ _ => true
  | .transmitBadLen args => dispatchable (args.length + 1) && decide (args.length + 1 ≠ Config.transmitLen)
  | .setRx _ padding => dispatchable (padding.length + 2)
  | .ignored opcode args =>
      dispatchable (args.length + 1) && decide (opcode ≠ Config.opTransmit) && decide (opcode ≠ Config.opSetRx)
  | .short _ args => decide (args.length + 1 < Config.minDispatchLen)
  | .rfPoll => true
  | .rfReport _ => true

end Sys2Proof
end

