-- ==== Sys2Proof/Decode.lean ====
section
/-!
DEFINITION. The two decode tables of spec/30_encoding.md section 5 (R53 by byte, R55 by frame), total and rejecting by name; then the encoder, and the host's reading of an opcode-table word.
-/

namespace Sys2Proof

/-- Why bytes are not an instruction. -/
inductive DecodeReject where
  /-- No byte stands where one is needed. -/
  | noByteThere
  /-- `ind > len`: no row of R53 applies (log 7). -/
  | readerStateNotAdmitted
  /-- A frame-level message begins with a header byte (R42), and this does not. -/
  | notAHeader
  /-- A frame without frame bytes is never dispatched (R45, R63). -/
  | emptyFrame
  /-- Fewer frame bytes than the header announces (R42). -/
  | incompleteFrame
  /-- More than 15 frame bytes: no header announces them (R63). -/
  | frameTooLong
  /-- Not the six bytes of a report (R52). -/
  | notAReport
  deriving DecidableEq, Repr

/-- How an instruction is spelled: the opcode table's column "format", a byte's reading split by the reader's state (R53). -/
inductive Format where
  | byteWhileIdle
  | byteWhileAccumulating
  | noByte
  | frame
  | step
  | report
  deriving DecidableEq, Repr

/-- The byte classes while IDLE: rows 2 and 3 of R53, row 3 by the four patterns of R54.
The rows HEADER and EMPTY_FRAME share 0x40, which is EMPTY_FRAME; DEDUCED, safe, log 9. -/
def decodeIdleByte (b : Byte) : Instr :=
  if isHeader b then
    if lengthOf b = 0 then .emptyFrame else .header (lengthOf b)
  else if b.extractLsb' 6 2 = 0b00#2 then .discardLow (b.extractLsb' 0 6)
  else if b.extractLsb' 4 4 = 0b0101#4 then .discardFifties (b.extractLsb' 0 4)
  else if b.extractLsb' 5 3 = 0b011#3 then .discardSixties (b.extractLsb' 0 5)
  else .discardHigh (b.extractLsb' 0 7)

/-- Byte-level decode of `HostRead`'s answer in the state (`ind`, `len`) (R53, R59, R62).
Row 1 comes first (C6). A state with `ind > len` matches no row (D24, I11); DESIGN CHOICE, safe, log 7. -/
def decodeInput (ind len : Nibble) (answer : Option Byte) : Except DecodeReject Instr :=
  match answer with
  | none => .ok .noByte
  | some b =>
    if ind < len then .ok (.payload b)
    else if ind = len then .ok (decodeIdleByte b)
    else .error .readerStateNotAdmitted

/-- Opcode 1 by its arguments: TRANSMIT at seven frame bytes (R46), TRANSMIT_BADLEN at any other length (R55). -/
def decodeOpcodeOne (args : List Byte) : Instr :=
  match args with
  | [f1, f2, f3, f4, f5, f6] => .transmit (assembleValue f1 f2 f3 f4) (assembleBits f5 f6)
  | _ => .transmitBadLen args

/-- Opcode 2 by its arguments: the flag, then padding (R47). -/
def decodeOpcodeTwo (args : List Byte) : Except DecodeReject Instr :=
  match args with
  | [] => .error .incompleteFrame
  | flag :: padding => .ok (.setRx flag padding)

/-- Frame-level decode of a completed frame's bytes: the rows of R55 in its order, the length before the opcode (R72, R97). -/
def decodeFrame (frame : List Byte) : Except DecodeReject Instr :=
  match frame with
  | [] => .error .emptyFrame
  | op :: args =>
    if Config.capacity < args.length + 1 then .error .frameTooLong
    else if args.length + 1 < Config.minDispatchLen then .ok (.short op args)
    else if op = Config.opTransmit then .ok (decodeOpcodeOne args)
    else if op = Config.opSetRx then decodeOpcodeTwo args
    else .ok (.ignored op args)

/-- A whole host-to-device message: a header byte, then the frame bytes it announces (R42, R44). -/
def decodeWire (bytes : List Byte) : Except DecodeReject (Instr × List Byte) :=
  match bytes with
  | [] => .error .noByteThere
  | h :: rest =>
    if isHeader h then
      if rest.length < (lengthOf h).toNat then .error .incompleteFrame
      else (decodeFrame (rest.take (lengthOf h).toNat)).map fun i => (i, rest.drop (lengthOf h).toNat)
    else .error .notAHeader

/-- The host's reading of an outbound report (R52, R106); the block itself decodes none. -/
def decodeReport (bytes : List Byte) : Except DecodeReject (Instr × List Byte) :=
  match bytes with
  | t :: v0 :: v1 :: v2 :: v3 :: e :: rest =>
    if t = Config.reportTag ∧ e = Config.reportTerm then .ok (.rfReport (assembleValue v3 v2 v1 v0), rest)
    else .error .notAReport
  | _ => .error .notAReport

/-- The decoder: an instruction of a format read from the front of a byte sequence, and the bytes after it. -/
def decode (format : Format) (bytes : List Byte) : Except DecodeReject (Instr × List Byte) :=
  match format, bytes with
  | .byteWhileIdle, b :: rest => .ok (decodeIdleByte b, rest)
  | .byteWhileIdle, [] => .error .noByteThere
  | .byteWhileAccumulating, b :: rest => .ok (.payload b, rest)
  | .byteWhileAccumulating, [] => .error .noByteThere
  | .noByte, rest => .ok (.noByte, rest)
  | .frame, bytes => decodeWire bytes
  | .step, rest => .ok (.rfPoll, rest)
  | .report, bytes => decodeReport bytes

/-- The wire form of a frame: its header byte, then its bytes (R42). -/
def encodeFrame (frame : List Byte) : List Byte := headerByte (BitVec.ofNat 4 frame.length) :: frame

/-- The bytes that spell an instruction, from the encodings of spec/30_encoding.md and the opcode table. -/
def encode : Instr → List Byte
  | .header len => [headerByte len]
  | .emptyFrame => [0b01000000#8]
  | .discardLow x => [0b00#2 ++ x]
  | .discardFifties x => [0b0101#4 ++ x]
  | .discardSixties x => [0b011#3 ++ x]
  | .discardHigh x => [0b1#1 ++ x]
  | .payload b => [b]
  | .noByte => []
  | .transmit value bits => encodeFrame (transmitFrame value bits)
  | .transmitBadLen args => encodeFrame (Config.opTransmit :: args)
  | .setRx flag padding => encodeFrame (Config.opSetRx :: flag :: padding)
  | .ignored opcode args => encodeFrame (opcode :: args)
  | .short first args => encodeFrame (first :: args)
  | .rfPoll => []
  | .rfReport v => reportBytes v

/-- How many bytes spell an instruction: one for a byte class, `N + 1` for a frame (R42), six for a report (R52). -/
def Instr.wireLength : Instr → Nat
  | .header _ => 1
  | .emptyFrame => 1
  | .discardLow _ => 1
  | .discardFifties _ => 1
  | .discardSixties _ => 1
  | .discardHigh _ => 1
  | .payload _ => 1
  | .noByte => 0
  | .transmit value bits => (Instr.transmit value bits).frameLength + 1
  | .transmitBadLen args => (Instr.transmitBadLen args).frameLength + 1
  | .setRx flag padding => (Instr.setRx flag padding).frameLength + 1
  | .ignored opcode args => (Instr.ignored opcode args).frameLength + 1
  | .short first args => (Instr.short first args).frameLength + 1
  | .rfPoll => 0
  | .rfReport _ => Config.reportLen

/-- The format a row of the opcode table has. -/
def Instr.format : Instr → Format
  | .header _ => .byteWhileIdle
  | .emptyFrame => .byteWhileIdle
  | .discardLow _ => .byteWhileIdle
  | .discardFifties _ => .byteWhileIdle
  | .discardSixties _ => .byteWhileIdle
  | .discardHigh _ => .byteWhileIdle
  | .payload _ => .byteWhileAccumulating
  | .noByte => .noByte
  | .transmit _ _ => .frame
  | .transmitBadLen _ => .frame
  | .setRx _ _ => .frame
  | .ignored _ _ => .frame
  | .short _ _ => .frame
  | .rfPoll => .step
  | .rfReport _ => .report

/-- The header byte of a 16-bit row word `(H << 8) | F[0]` (R55). -/
def rowHeader (w : Nat) : Byte := BitVec.ofNat 8 (w / 256)

/-- The frame bytes a 16-bit row word stands for: `F[0]`, then arguments of zero, as many as the header announces. -/
def rowFrame (w : Nat) : List Byte :=
  match (lengthOf (rowHeader w)).toNat with
  | 0 => []
  | n + 1 => BitVec.ofNat 8 w :: List.replicate n 0x00#8

/-- The bytes of a report row numbered as one 48-bit number, the first byte most significant (as R55 numbers frame words). -/
def rowReport (w : Nat) : List Byte :=
  [BitVec.ofNat 8 (w / 2 ^ 40), BitVec.ofNat 8 (w / 2 ^ 32), BitVec.ofNat 8 (w / 2 ^ 24),
    BitVec.ofNat 8 (w / 2 ^ 16), BitVec.ofNat 8 (w / 2 ^ 8), BitVec.ofNat 8 w]

/-- The result of a decode, without the name of a rejection. -/
def decoded (r : Except DecodeReject (Instr × List Byte)) : Option Instr :=
  match r with
  | .ok (i, _) => some i
  | .error _ => none

/-- What the decoder reads from an opcode-table word: 8 bits are a byte read while IDLE, 16 bits a frame with arguments
of zero, 48 bits a report, no bits the absent byte. DESIGN CHOICE, safe, log 11. -/
def decodeTableWord (nbits w : Nat) : Option Instr :=
  match nbits with
  | 0 => some .noByte
  | 8 => decoded (decode .byteWhileIdle [BitVec.ofNat 8 w])
  | 16 => decoded (decode .frame (rowHeader w :: rowFrame w))
  | 48 => decoded (decode .report (rowReport w))
  | _ => none

end Sys2Proof
end

