-- ==== Sys2Proof/Machine/Fetch.lean ====
section
/-!
DEFINITION. How the next instruction comes to run: the poll loop's choice of step (spec/43_poll_loop.md R88), the `HostRead`
and byte decode of a `ByteStep` (spec/40_frame_reader.md R59), and the placing of an opcode-table word for `withFetchWord`.
-/

namespace Sys2Proof.Machine

/-- `ByteStep()` of R59 up to its transition: one `HostRead`, then the class of the answer. -/
def fetchByte (s : State) : Except Refusal (Instr × State) :=
  let read := askHostRead s
  match decodeInput s.ind s.len read.1 with
  | .ok i => .ok (i, read.2)
  | .error _ => .error .readerStateNotAdmitted

/-- The next step's instruction, and the state it runs in: `ByteStep` or `RfPoll` (R88). -/
def fetch (s : State) : Except Refusal (Instr × State) :=
  let next := takeStepKind s
  match next.1 with
  | .byteStep => fetchByte next.2
  | .rfPoll => .ok (.rfPoll, next.2)

/-- Put an answer at the front of a source. -/
def Source.push {α : Type} (a : α) (q : Source α) : Source α := { q with listed := a :: q.listed }

/-- Make the next step a `ByteStep` whose `HostRead` answers `a`, with an `RfSend` that returns. -/
def expectByte (a : Option Byte) (s : State) : State :=
  (s.withLoop .polling).withEnv
    { s.env with schedule := s.env.schedule.push .byteStep, host := s.env.host.push a,
                 sendReturns := s.env.sendReturns.push true }

/-- Make the next step an `RfPoll` that finds the value `v`. -/
def expectReport (v : Word) (s : State) : State :=
  (s.withLoop .polling).withEnv
    { s.env with schedule := s.env.schedule.push .rfPoll, available := s.env.available.push true,
                 value := s.env.value.push v }

/-- The reader IDLE, as every return to IDLE leaves it (R66); unchanged where it is IDLE already. -/
def ensureIdle (s : State) : State := if s.ind = s.len then s else clearReader s

/-- Store consecutive bytes from slot `a`. -/
def storeBytes (m : Memory) (a : Nat) (bytes : List Byte) : Memory :=
  match bytes with
  | [] => m
  | b :: rest => storeBytes (Memory.store m a b) (a + 1) rest

/-- All of a frame received but its last byte, which the next `HostRead` answers: the next step completes the frame. -/
def expectFrame (frame : List Byte) (s : State) : State :=
  expectByte frame.getLast?
    (((s.withLen (BitVec.ofNat 4 frame.length)).withInd (BitVec.ofNat 4 (frame.length - 1))).withBuf
      (storeBytes [] 0 frame.dropLast))

/-- Place an opcode-table word so that the very next step runs it: no bits an absent byte, 8 bits an inbound byte while
IDLE, 16 bits a frame with arguments of zero, 48 bits a report of an RF poll. DESIGN CHOICE, safe, log 11. -/
def placeTableWord (s : State) (nbits w : Nat) : State :=
  match nbits with
  | 0 => expectByte none s
  | 16 => match (if isHeader (rowHeader w) then rowFrame w else []) with
    | [] => expectByte (some (rowHeader w)) (ensureIdle s)
    | frame => expectFrame frame s
  | 48 => expectReport (BitVec.ofNat 8 (w / 2 ^ 8) ++ BitVec.ofNat 8 (w / 2 ^ 16) ++ BitVec.ofNat 8 (w / 2 ^ 24)
      ++ BitVec.ofNat 8 (w / 2 ^ 32)) s
  | _ => expectByte (some (BitVec.ofNat 8 w)) (ensureIdle s)

end Sys2Proof.Machine
end

