-- ==== Sys2Proof/Machine/Step.lean ====
section
/-!
DEFINITION. One atomic step of the poll loop (spec/43_poll_loop.md R88), and the placing of a word for the host.
-/

namespace Sys2Proof.Machine

/-- One step: fetch and execute. Inside an `RfSend` that does not return, the step in progress goes on without end
(I7); DESIGN CHOICE, safe, log 6. -/
def step (s : State) : Host.Outcome State Fault Refusal :=
  match s.loop with
  | .sendPending => .next s
  | .polling =>
    match fetch s with
    | .ok (i, fetched) => exec i fetched
    | .error r => .refused r

/-- `s` with an opcode-table word stored where the next step finds it; log 11. -/
def State.withFetchWord (s : State) (nbits w : Nat) : State := placeTableWord s nbits w

end Sys2Proof.Machine
end

