-- ==== Sys2Proof/Machine/Assembler.lean ====
section
/-!
DEFINITION. The spec's own notation for inbound bytes (spec/30_encoding.md R58): each form and the wire bytes it stands for.
-/

namespace Sys2Proof.Machine

/-- The forms of R58. -/
inductive Form where
  | bytes (bs : List Byte)
  | frame (fs : List Byte)
  | transmit (value : Word) (bits : Half)
  | setRx (flag : Byte)
  | rxOn
  | rxOff
  | empty
  | fill (k : Nat)
  deriving DecidableEq, Repr

/-- The wire bytes of a form; `none` for a frame of more than 15 bytes, which R58 does not admit. -/
def assemble : Form → Option (List Byte)
  | .bytes bs => some bs
  | .frame fs => if fs.length ≤ Config.capacity then some (BitVec.ofNat 8 (0x40 + fs.length) :: fs) else none
  | .transmit value bits =>
      some [0x47, 0x01, valueByte value 3, valueByte value 2, valueByte value 1, valueByte value 0,
        bits.extractLsb' 8 8, bits.extractLsb' 0 8]
  | .setRx flag => some [0x43, 0x02, flag, 0x00]
  | .rxOn => some [0x43, 0x02, 0x01, 0x00]
  | .rxOff => some [0x43, 0x02, 0x00, 0x00]
  | .empty => some [0x40]
  | .fill k => some (List.replicate k 0x00)

end Sys2Proof.Machine
end

