-- ==== Sys2Proof/Machine/Observe.lean ====
section
/-!
DEFINITION. Views of the trace: what stands on a port (spec/10_state.md R20, R21), what was received and written, and what each path contributes.
-/

namespace Sys2Proof.Machine

/-- Whether an event is a port transaction (R20) and not a model-only observation (R21). -/
def Event.onPort : Event → Bool
  | .hostRead _ => true
  | .hostWrite _ => true
  | .rfSend _ _ => true
  | .rfEnable => true
  | .rfDisable => true
  | .rfIsAvailable _ => true
  | .rfGetValue _ => true
  | .rfResetAvailable => true
  | .dispatch _ _ => false
  | .drop _ => false

/-- Whether an event is a `HostRead`. -/
def Event.isHostRead : Event → Bool
  | .hostRead _ => true
  | .hostWrite _ => false
  | .rfSend _ _ => false
  | .rfEnable => false
  | .rfDisable => false
  | .rfIsAvailable _ => false
  | .rfGetValue _ => false
  | .rfResetAvailable => false
  | .dispatch _ _ => false
  | .drop _ => false

/-- Whether only the inbound path makes an event; `RfResetAvailable` is not among them, since both paths make it (R87). -/
def Event.isInbound : Event → Bool
  | .hostRead _ => true
  | .hostWrite _ => false
  | .rfSend _ _ => true
  | .rfEnable => true
  | .rfDisable => true
  | .rfIsAvailable _ => false
  | .rfGetValue _ => false
  | .rfResetAvailable => false
  | .dispatch _ _ => true
  | .drop _ => true

/-- Whether an event is a `HostWrite`. -/
def Event.isHostWrite : Event → Bool
  | .hostRead _ => false
  | .hostWrite _ => true
  | .rfSend _ _ => false
  | .rfEnable => false
  | .rfDisable => false
  | .rfIsAvailable _ => false
  | .rfGetValue _ => false
  | .rfResetAvailable => false
  | .dispatch _ _ => false
  | .drop _ => false

/-- The trace of port transactions alone. -/
def portTrace (tr : List Event) : List Event := tr.filter Event.onPort

/-- The trace without its `HostRead` events (R71). -/
def withoutHostReads (tr : List Event) : List Event := tr.filter fun e => !e.isHostRead

/-- What the inbound path put into the trace. -/
def inboundEvents (tr : List Event) : List Event := tr.filter Event.isInbound

/-- The dispatch observations of a trace, in order (R21). -/
def dispatches : List Event → List (Nibble × List Byte)
  | [] => []
  | .dispatch n bytes :: rest => (n, bytes) :: dispatches rest
  | _ :: rest => dispatches rest

/-- The drop observations of a trace, in order (R21, R94). -/
def drops : List Event → List DropReason
  | [] => []
  | .drop r :: rest => r :: drops rest
  | _ :: rest => drops rest

/-- The bytes the transport delivered, in order (R60, R105). -/
def bytesReceived : List Event → List Byte
  | [] => []
  | .hostRead (some b) :: rest => b :: bytesReceived rest
  | _ :: rest => bytesReceived rest

/-- The bytes handed to the transport, in order (R105); what it delivers of them is its own (R35, I4). -/
def bytesWritten : List Event → List Byte
  | [] => []
  | .hostWrite bytes :: rest => bytes ++ bytesWritten rest
  | _ :: rest => bytesWritten rest

/-- The events between two states of a run. -/
def newEvents (s t : State) : List Event := t.trace.drop s.trace.length

end Sys2Proof.Machine
end

