-- ==== Sys2Proof/Machine/Services.lean ====
section
/-!
DEFINITION. What the block may assume of the external services (spec/60_exceptions.md R103 to R105): premises on the
environment's answers, never steps of the block. A history is a trace with the receiver's latch events put where they happen;
DESIGN CHOICE, safe, log 14.
-/

namespace Sys2Proof.Machine

/-- A port transaction or observation of the block, or the receiver latching a value on its own (R103 clause 3). -/
inductive ServiceEvent where
  | block (e : Event)
  | latch (value : Word)
  deriving DecidableEq, Repr

/-- Whether the receiver may still hold a value, after one event: a latch sets it, `RfResetAvailable` clears it (R103). -/
def mayBePending (before : Bool) : ServiceEvent → Bool
  | .latch _ => true
  | .block .rfResetAvailable => false
  | .block _ => before

/-- R103 clause 2: `RfIsAvailable` answers true only where a value may be pending; every other answer is admitted (D11). -/
def receiverContract (pending : Bool) : List ServiceEvent → Prop
  | [] => True
  | .block (.rfIsAvailable true) :: rest => pending = true ∧ receiverContract pending rest
  | e :: rest => receiverContract (mayBePending pending e) rest

/-- A trace as a history in which the receiver latches nothing. -/
def quietHistory (tr : List Event) : List ServiceEvent := tr.map .block

/-- The receiver's mode after a trace, from its mode before: `RfEnable` and `RfDisable` set it, so that repeating one is a
no-op (R103 clause 1). -/
def receiverMode (mode : Option Bool) : List Event → Option Bool
  | [] => mode
  | .rfEnable :: rest => receiverMode (some true) rest
  | .rfDisable :: rest => receiverMode (some false) rest
  | _ :: rest => receiverMode mode rest

/-- The receiver's mode in a run from power-up (R22, D5). -/
def receiverModeNow (s : State) : Option Bool := receiverMode Config.rxEnabledAtReset s.trace

end Sys2Proof.Machine
end

