-- ==== Sys2Proof/Safety.lean ====
section
/-!
DEFINITION. What counts as a safe state and a safe run, in the terms the statements use: the reader's invariant
(spec/10_state.md R9, R12, R13), the events a step may make, and how a run is fed.
-/

namespace Sys2Proof.Machine

/-- R9, R12 and R13 between steps: the cursor is at most the target length, slots from the cursor on are cleared, and IDLE
has nothing left over. -/
def ReaderClean (s : State) : Prop :=
  s.ind ≤ s.len ∧ (∀ j, s.ind.toNat ≤ j → Memory.byteAt s.buf j = clearedSlot) ∧ (s.ind = s.len → s.len = 0)

/-- Inside an `RfSend` that does not return, the whole TRANSMIT frame still stands in the buffer (R66, R74). -/
def SendStanding (s : State) : Prop :=
  s.ind = s.len ∧ s.len.toNat = Config.transmitLen ∧ Memory.byteAt s.buf 0 = Config.opTransmit

/-- The invariant of the machine. -/
def ReaderInv (s : State) : Prop :=
  Memory.wf s.buf = true ∧ (s.loop = .polling → ReaderClean s) ∧ (s.loop = .sendPending → SendStanding s)

/-- The registers, the buffer's every slot, the step in progress: what a dispatcher action and an RF poll leave alone. -/
def SameReader (s t : State) : Prop :=
  t.ind = s.ind ∧ t.len = s.len ∧ ∀ a, Memory.byteAt t.buf a = Memory.byteAt s.buf a

/-- The events of one frame-level row, by its operands: the port events of R74 and R76, the observations of R94. -/
def actionEvents (i : Instr) (returns : Bool) : List Event :=
  match i with
  | .transmit value bits => if returns then [.rfSend value bits, .rfResetAvailable] else [.rfSend value bits]
  | .transmitBadLen args => [.drop (.transmitBadLength (BitVec.ofNat 4 (args.length + 1)))]
  | .setRx flag _ => if flag = 0x00#8 then [.rfDisable] else [.rfEnable]
  | .ignored opcode _ => [.drop (.unknownOpcode opcode)]
  | .short _ args => [.drop (.shortFrame (BitVec.ofNat 4 (args.length + 1)))]
  | .header _ => []
  | .emptyFrame => []
  | .discardLow _ => []
  | .discardFifties _ => []
  | .discardSixties _ => []
  | .discardHigh _ => []
  | .payload _ => []
  | .noByte => []
  | .rfPoll => []
  | .rfReport _ => []

/-- The events of a completed frame's dispatch, from its bytes by the table of R55. -/
def frameEvents (frame : List Byte) (returns : Bool) : List Event :=
  match decodeFrame frame with
  | .ok i => actionEvents i returns
  | .error _ => []

/-- The events one step may append: those of R62, R63, R64, R65 with R66, and R84, in their order. -/
inductive StepEvents : List Event → Prop where
  | noByte : StepEvents [.hostRead none]
  | taken (b : Byte) : StepEvents [.hostRead (some b)]
  | discarded (b : Byte) (h : isHeader b = false) : StepEvents [.hostRead (some b), .drop (.hdrOutOfRange b)]
  | completed (b : Byte) (frame : List Byte) (returns : Bool) (h : 1 ≤ frame.length ∧ frame.length ≤ Config.capacity)
      (last : frame.getLast? = some b) :
      StepEvents ([.hostRead (some b), .dispatch (BitVec.ofNat 4 frame.length) frame] ++ frameEvents frame returns)
  | polledNothing : StepEvents [.rfIsAvailable false]
  | reported (v : Word) :
      StepEvents [.rfIsAvailable true, .rfGetValue v, .hostWrite (reportBytes v), .rfResetAvailable]

/-- Every `RfSend` is followed at once by `RfResetAvailable`, unless it is the last event and has not returned (R75, I7). -/
def sendsAreCleared (pendingAtEnd : Bool) : List Event → Bool
  | [] => true
  | [.rfSend _ _] => pendingAtEnd
  | .rfSend _ _ :: .rfResetAvailable :: rest => sendsAreCleared pendingAtEnd rest
  | .rfSend _ _ :: _ => false
  | _ :: rest => sendsAreCleared pendingAtEnd rest

/-- The kinds of step to come, in order. -/
def State.withSchedule (s : State) (kinds : List StepKind) : State :=
  s.withEnv { s.env with schedule := { s.env.schedule with listed := kinds } }

/-- Weak fairness of an infinite order of steps: each kind occurs infinitely often (R90, D9). A premise for claims about
infinite runs, never a part of the machine. -/
def WeaklyFair (kinds : Nat → StepKind) : Prop :=
  ∀ n, (∃ m, n ≤ m ∧ kinds m = .byteStep) ∧ ∃ m, n ≤ m ∧ kinds m = .rfPoll

/-- The first `n` steps of an infinite order. -/
def firstSteps (kinds : Nat → StepKind) (n : Nat) : List StepKind := (List.range n).map kinds

/-- As many byte steps as there are answers, with these answers to their `HostRead`s. -/
def State.withByteAnswers (s : State) (answers : List (Option Byte)) : State :=
  s.withEnv { s.env with
    schedule := { s.env.schedule with listed := answers.map fun _ => StepKind.byteStep }
    host := { s.env.host with listed := answers } }

/-- Byte steps that receive these bytes, one each. -/
def State.withBytes (s : State) (bytes : List Byte) : State := s.withByteAnswers (bytes.map some)

/-- The `HostRead` events of bytes received one after another. -/
def readsOf (bytes : List Byte) : List Event := bytes.map fun b => .hostRead (some b)

/-- The events of bytes discarded one after another while IDLE (R64). -/
def discardsOf (bytes : List Byte) : List Event :=
  bytes.flatMap fun b => [.hostRead (some b), .drop (.hdrOutOfRange b)]

/-- The next step is a `ByteStep` and its `HostRead` answers `a`. -/
def NextByteIs (s : State) (a : Option Byte) : Prop :=
  (takeStepKind s).1 = .byteStep ∧ (askHostRead (takeStepKind s).2).1 = a

/-- The first `RfSend` to come returns. -/
def SendReturns (s : State) : Prop := (s.env.sendReturns.take Config.freeSendReturns).1 = true

end Sys2Proof.Machine
end

