-- ==== Sys2Proof/Certificates/Slice0/Obligations.lean ====
section
/-!
DEFINITION. The statements about the model, each from the numbered rules of spec/. A frame (`SameReader`) speaks of `ind`,
`len` and every slot's byte; the trace is given whole.
-/

open Sys2Proof Sys2Proof.Machine

/-! ### Reset and encodings -/

/-- R22, R110. The values are the spec's decisions D3 and D4 (log 1); `loop` is the model's (log 6). -/
def Obligations.ResetIsIdleWithNothingReceived : Prop :=
  readerMode State.reset = some .idle ∧ State.reset.ind = 0 ∧ State.reset.len = 0 ∧
    (∀ i : Fin 15, bufRead State.reset i = 0x00#8) ∧ State.reset.trace = [] ∧ State.reset.loop = .polling

/-- Words written out from R42 to R47 and the table's rows decode to the instruction they stand for. -/
def Obligations.TableWordsDecodeToTheirRows : Prop :=
  decode .byteWhileIdle [0x47] = .ok (.header 7, []) ∧
  decode .byteWhileIdle [0x40] = .ok (.emptyFrame, []) ∧
  decode .byteWhileIdle [0x50] = .ok (.discardFifties 0, []) ∧
  decode .byteWhileAccumulating [0x45] = .ok (.payload 0x45, []) ∧
  decode .frame [0x47, 0x01, 0x00, 0x00, 0x01, 0x00, 0x00, 0x10] = .ok (.transmit 256 16, []) ∧
  decode .frame [0x43, 0x02, 0x01, 0x00] = .ok (.setRx 1 [0], []) ∧
  decode .frame [0x42, 0x02, 0x00] = .ok (.short 2 [0], [])

/-- R42 to R47, R52: no bit of an encoding is dropped, at any operands, whatever bytes follow. -/
def Obligations.DecodeOfEncodeIsTheInstruction : Prop :=
  ∀ (i : Instr) (rest : List Byte), i.wellFormed = true → decode i.format (encode i ++ rest) = .ok (i, rest)

/-- R53, R55, R56: a decoded instruction is well formed, of the format it was read in, and spells exactly the bytes taken. -/
def Obligations.EncodeOfDecodeIsTheBytes : Prop :=
  ∀ (f : Format) (bytes : List Byte) (i : Instr) (rest : List Byte), decode f bytes = .ok (i, rest) →
    i.wellFormed = true ∧ i.format = f ∧ encode i ++ rest = bytes

/-- R53: the byte classes by the reader's state, ACCUMULATING before the header test, and NO_BYTE for an absent byte. -/
def Obligations.ByteClassesFollowTheReaderState : Prop :=
  ∀ (ind len : Nibble) (b : Byte),
    (ind < len → decodeInput ind len (some b) = .ok (.payload b)) ∧
    (ind = len → tagOf b = 0b0100#4 →
      decodeInput ind len (some b) = .ok (if lengthOf b = 0 then .emptyFrame else .header (lengthOf b))) ∧
    (ind = len → tagOf b ≠ 0b0100#4 → ∃ i, decodeInput ind len (some b) = .ok i ∧ encode i = [b] ∧
      ((∃ x, i = .discardLow x) ∨ (∃ x, i = .discardFifties x) ∨ (∃ x, i = .discardSixties x) ∨
        ∃ x, i = .discardHigh x)) ∧
    decodeInput ind len none = .ok .noByte

/-- R43, R54: the header range 0x40 to 0x4F and the four ranges of discarded bytes, as numbers. -/
def Obligations.IdleByteRanges : Prop :=
  ∀ b : Byte,
    (isHeader b = true ↔ Config.hdrLo ≤ b.toNat ∧ b.toNat < Config.hdrHi) ∧
    (b.toNat < 64 → ∃ x, decodeIdleByte b = .discardLow x) ∧
    (80 ≤ b.toNat → b.toNat < 96 → ∃ x, decodeIdleByte b = .discardFifties x) ∧
    (96 ≤ b.toNat → b.toNat < 128 → ∃ x, decodeIdleByte b = .discardSixties x) ∧
    (128 ≤ b.toNat → ∃ x, decodeIdleByte b = .discardHigh x)

/-- R55, R57: the frame classes by length, then opcode. -/
def Obligations.FrameClassesByLengthThenOpcode : Prop :=
  ∀ (op : Byte) (args : List Byte), args.length + 1 ≤ 15 →
    (args.length + 1 ≤ 2 → decodeFrame (op :: args) = .ok (.short op args)) ∧
    (3 ≤ args.length + 1 →
      (op = 0x01#8 → args.length + 1 = 7 →
        ∃ value bits, decodeFrame (op :: args) = .ok (.transmit value bits) ∧ transmitFrame value bits = op :: args) ∧
      (op = 0x01#8 → args.length + 1 ≠ 7 → decodeFrame (op :: args) = .ok (.transmitBadLen args)) ∧
      (op = 0x02#8 → ∃ flag padding, args = flag :: padding ∧ decodeFrame (op :: args) = .ok (.setRx flag padding)) ∧
      (op ≠ 0x01#8 → op ≠ 0x02#8 → decodeFrame (op :: args) = .ok (.ignored op args)))

/-- R48, R49: TRANSMIT's operands are big-endian and never sign-extended. -/
def Obligations.TransmitOperandsAreBigEndian : Prop :=
  ∀ f1 f2 f3 f4 f5 f6 : Byte, ∃ (value : Word) (bits : Half),
    decodeFrame [0x01, f1, f2, f3, f4, f5, f6] = .ok (.transmit value bits) ∧
    value.toNat = f1.toNat * 2 ^ 24 + f2.toNat * 2 ^ 16 + f3.toNat * 2 ^ 8 + f4.toNat ∧
    bits.toNat = f5.toNat * 2 ^ 8 + f6.toNat

/-- R58 (the spec's own notation, D13): the assembler's forms are the encodings. -/
def Obligations.AssembledFormsAreTheEncodings : Prop :=
  (∀ value bits, assemble (.transmit value bits) = some (encode (.transmit value bits))) ∧
  (∀ flag, assemble (.setRx flag) = some (encode (.setRx flag [0x00]))) ∧
  assemble .rxOn = assemble (.setRx 0x01) ∧ assemble .rxOff = assemble (.setRx 0x00) ∧
  assemble .empty = some (encode .emptyFrame) ∧
  (∀ fs : List Byte, 1 ≤ fs.length → fs.length ≤ 15 → ∃ bytes, assemble (.frame fs) = some bytes ∧
    ∀ i, decodeFrame fs = .ok i → decode .frame bytes = .ok (i, [])) ∧
  assemble (.frame []) = some [0x40] ∧
  (∀ bs, assemble (.bytes bs) = some bs) ∧
  ∀ k, assemble (.fill k) = some (List.replicate k 0x00)

/-! ### Steps -/

/-- R59, R88: a step is `exec` of the decoded instruction, after the step kind and the answer have been taken. -/
def Obligations.StepRunsTheDecodedInstruction : Prop :=
  ∀ s : State, s.loop = .polling →
    ((takeStepKind s).1 = .rfPoll → step s = exec .rfPoll (takeStepKind s).2) ∧
    (∀ (a : Option Byte) (i : Instr), NextByteIs s a → decodeInput s.ind s.len a = .ok i →
      step s = exec i (askHostRead (takeStepKind s).2).2)

/-- R34, R60: what is listed is what is taken, in order, once; a `HostRead` is in the trace with its answer.
The lists are the model's form of the environment (log 4, log 5). -/
def Obligations.AnswersAreTakenInOrder : Prop :=
  ∀ (s : State) (k : StepKind) (ks : List StepKind) (a : Option Byte) (as : List (Option Byte)),
    s.env.schedule.listed = k :: ks → s.env.host.listed = a :: as →
    (takeStepKind s).1 = k ∧ (askHostRead (takeStepKind s).2).1 = a ∧
    (askHostRead (takeStepKind s).2).2 =
      { s with trace := s.trace ++ [.hostRead a]
               env := { s.env with schedule := { s.env.schedule with listed := ks }
                                   host := { s.env.host with listed := as } } }

/-- I11, D24: a byte in a state with `ind > len` is refused by name (the model's reading, log 7). -/
def Obligations.ByteInUnadmittedStateIsRefused : Prop :=
  ∀ (s : State) (b : Byte), s.loop = .polling → s.len < s.ind → NextByteIs s (some b) →
    step s = .refused .readerStateNotAdmitted

/-- R93: no step faults, and R9's premise is the only one a step needs to be total. -/
def Obligations.NoStepFaultsAndStepsAreTotal : Prop :=
  ∀ s : State, (∀ f, step s ≠ .fault f) ∧ (s.ind ≤ s.len → ∃ t, step s = .next t)

/-- R9, R12, R13, R22: the invariant holds after reset. -/
def Obligations.ResetMeetsTheReaderInvariant : Prop := ReaderInv State.reset

/-- R9, R12, R13, R24: every step keeps the invariant: the cursor bound, the cleared slots (0x00 is D3, log 1), IDLE empty,
memory canonical; inside an `RfSend` that has not returned (log 6), the frame stands. -/
def Obligations.StepKeepsTheReaderInvariant : Prop :=
  ∀ s t : State, ReaderInv s → step s = .next t → ReaderInv t

/-- R92: the block never halts. -/
def Obligations.RunsNeverHalt : Prop :=
  ∀ (k : Nat) (s : State), ReaderInv s → ∃ t, Sys2Proof.core.run k s = .next t ∧ ReaderInv t

/-- I7, R118: inside an `RfSend` that does not return, nothing more happens (the model's form of `stuck`, log 6). -/
def Obligations.UnreturnedSendHoldsTheBlock : Prop :=
  (∀ (s : State) (value : Word) (bits : Half), ¬ SendReturns s →
    exec (.transmit value bits) s = .next
      { s with trace := s.trace ++ [.rfSend value bits]
               loop := .sendPending
               env := { s.env with sendReturns := (s.env.sendReturns.take Config.freeSendReturns).2 } }) ∧
  ∀ (k : Nat) (s : State), s.loop = .sendPending → Sys2Proof.core.run k s = .next s

/-- R37, R59, R72, R84: a step appends the events of exactly one of the rules' sequences, in the rule's order.
`HostWrite` before `RfResetAvailable` is the spec's decision D10 (log 13); an `RfSend` that ends a step without
`RfResetAvailable` is the model's form of I7 (log 6). -/
def Obligations.StepAppendsOneStepsEvents : Prop :=
  ∀ s t : State, ReaderInv s → s.loop = .polling → step s = .next t → ∃ es, t.trace = s.trace ++ es ∧ StepEvents es

/-- R37: a run's trace is the concatenation of its steps' events, in order; the run form of StepAppendsOneStepsEvents.
The order inside a report is D10 (log 13), an `RfSend` that does not return is the model's form of I7 (log 6). -/
def Obligations.RunsAppendWholeSteps : Prop :=
  ∀ (k : Nat) (s t : State), ReaderInv s → Sys2Proof.core.run k s = .next t →
    ∃ blocks : List (List Event), blocks.length ≤ k ∧ t.trace = s.trace ++ blocks.flatten ∧ ∀ b ∈ blocks, StepEvents b

/-- R61, R97: at most one byte, one dispatch and one drop in a step. -/
def Obligations.OneByteOneDispatchOneDropAtMost : Prop :=
  ∀ s t : State, ReaderInv s → step s = .next t →
    (bytesReceived (newEvents s t)).length ≤ 1 ∧ (dispatches (newEvents s t)).length ≤ 1 ∧
      (drops (newEvents s t)).length ≤ 1

/-! ### Frame Reader -/

/-- R62: NO_BYTE writes nothing; the step leaves the `HostRead` in the trace. -/
def Obligations.NoByteChangesNothing : Prop :=
  ∀ s : State, exec .noByte s = .next s ∧
    (s.loop = .polling → NextByteIs s none →
      ∃ t, step s = .next t ∧ SameReader s t ∧ t.loop = .polling ∧ t.trace = s.trace ++ [.hostRead none])

/-- R51, R63: `len` takes the low four bits, `ind` is 0, everything else stands. That the buffer is not written is R63's
derivation (log 1); that 0x40 is the row EMPTY_FRAME is log 9. -/
def Obligations.HeaderSetsLengthAndCursor : Prop :=
  ∀ s : State,
    (∀ len : Nibble, exec (.header len) s = .next { s with len := len, ind := 0 }) ∧
    exec .emptyFrame s = .next { s with len := 0, ind := 0 } ∧
    ∀ b : Byte, s.loop = .polling → s.ind = s.len → isHeader b = true → NextByteIs s (some b) →
      ∃ t, step s = .next t ∧ t.len.zeroExtend 8 = b &&& Config.lenMask ∧ t.ind = 0 ∧ t.buf = s.buf ∧
        t.loop = .polling ∧ t.trace = s.trace ++ [.hostRead (some b)]

/-- R64: a byte outside the header range while IDLE changes no state; the drop observation records it. -/
def Obligations.DiscardChangesNothing : Prop :=
  ∀ s : State,
    (∀ x, exec (.discardLow x) s = .next { s with trace := s.trace ++ [.drop (.hdrOutOfRange (0b00#2 ++ x))] }) ∧
    (∀ x, exec (.discardFifties x) s = .next { s with trace := s.trace ++ [.drop (.hdrOutOfRange (0b0101#4 ++ x))] }) ∧
    (∀ x, exec (.discardSixties x) s = .next { s with trace := s.trace ++ [.drop (.hdrOutOfRange (0b011#3 ++ x))] }) ∧
    (∀ x, exec (.discardHigh x) s = .next { s with trace := s.trace ++ [.drop (.hdrOutOfRange (0b1#1 ++ x))] }) ∧
    ∀ b : Byte, s.loop = .polling → s.ind = s.len → (b.toNat < 64 ∨ 80 ≤ b.toNat) → NextByteIs s (some b) →
      ∃ t, step s = .next t ∧ SameReader s t ∧ t.loop = .polling ∧
        t.trace = s.trace ++ [.hostRead (some b), .drop (.hdrOutOfRange b)]

/-- R65: PAYLOAD stores at the cursor, advances it by one without wrapping, and completes the frame when it reaches `len`. -/
def Obligations.PayloadStoresAndAdvances : Prop :=
  ∀ (s : State) (b : Byte), Memory.wf s.buf = true → s.ind < s.len →
    ∃ m : Memory, Memory.byteAt m s.ind.toNat = b ∧
      (∀ a, a ≠ s.ind.toNat → Memory.byteAt m a = Memory.byteAt s.buf a) ∧
      (s.ind + 1).toNat = s.ind.toNat + 1 ∧
      exec (.payload b) s =
        .next (if s.ind + 1 = s.len then complete { s with buf := m, ind := s.ind + 1 }
               else { s with buf := m, ind := s.ind + 1 })

/-- R24: there is no slot 15. PAYLOAD's meaning stops there (the model's choice for a state PAYLOAD is not decoded in, log 8). -/
def Obligations.PayloadAtSlotFifteenFaults : Prop :=
  ∀ (s : State) (b : Byte), s.ind = 15 → exec (.payload b) s = .fault .slotOutOfRange

/-- R69: a header-range byte in ACCUMULATING is stored like any other, and does not restart the frame. -/
def Obligations.HeaderByteInsideAFrameIsData : Prop :=
  ∀ (s : State) (b : Byte), Memory.wf s.buf = true → s.loop = .polling → s.ind < s.len → isHeader b = true →
    NextByteIs s (some b) →
    ∃ t, step s = .next t ∧
      (s.ind + 1 < s.len → t.ind = s.ind + 1 ∧ t.len = s.len ∧ Memory.byteAt t.buf s.ind.toNat = b ∧
        (∀ a, a ≠ s.ind.toNat → Memory.byteAt t.buf a = Memory.byteAt s.buf a) ∧
        t.trace = s.trace ++ [.hostRead (some b)]) ∧
      (s.ind + 1 = s.len → dispatches (newEvents s t) = [(s.len, frameBytes s s.ind ++ [b])])

/-- R66: the dispatcher runs on the frame first; then the reader is IDLE and every slot cleared (0x00 is D3).
Once the `RfSend`, if there is one, has returned (I7). -/
def Obligations.CompletionDispatchesThenClears : Prop :=
  ∀ s : State, s.loop = .polling → s.len ≠ 0 → SendReturns s →
    (complete s).ind = 0 ∧ (complete s).len = 0 ∧ (∀ a, Memory.byteAt (complete s).buf a = 0x00#8) ∧
    (complete s).loop = .polling ∧
    (complete s).trace =
      s.trace ++ [.dispatch s.len (frameBytes s s.len)] ++ frameEvents (frameBytes s s.len) true

/-- R67: the reader's control transitions on a byte. -/
def Obligations.ReaderControlTransitions : Prop :=
  ∀ (s : State) (b : Byte), ReaderInv s → s.loop = .polling → SendReturns s → NextByteIs s (some b) →
    ∃ t, step s = .next t ∧
      readerMode t = some
        (if s.ind < s.len then (if s.ind.toNat + 1 < s.len.toNat then .accumulating else .idle)
         else if isHeader b = true ∧ lengthOf b ≠ 0 then .accumulating else .idle)

/-! ### Dispatcher -/

/-- R72, R55: the dispatcher does what `exec` does for the row that R55 gives the frame. -/
def Obligations.DispatchRunsTheFramesInstruction : Prop :=
  ∀ (s : State) (n : Nibble), n ≠ 0 → ∃ i, decodeFrame (frameBytes s n) = .ok i ∧ exec i s = .next (dispatch n s)

/-- R73: a frame of one or two bytes is dropped, whatever its bytes. -/
def Obligations.ShortFrameIsDropped : Prop :=
  ∀ s : State,
    (∀ first args, exec (.short first args) s =
      .next { s with trace := s.trace ++ [.drop (.shortFrame (BitVec.ofNat 4 (args.length + 1)))] }) ∧
    ∀ n : Nibble, n = 1 ∨ n = 2 → dispatch n s = { s with trace := s.trace ++ [.drop (.shortFrame n)] }

/-- R74: at length 7 `RfSend` with the assembled operands, then `RfResetAvailable`; at any other length nothing but the drop.
For an `RfSend` that returns (R104); one that does not is UnreturnedSendHoldsTheBlock. -/
def Obligations.TransmitSendsThenClears : Prop :=
  ∀ s : State,
    (∀ value bits, SendReturns s → exec (.transmit value bits) s = .next
      { s with trace := s.trace ++ [.rfSend value bits, .rfResetAvailable]
               env := { s.env with sendReturns := (s.env.sendReturns.take Config.freeSendReturns).2 } }) ∧
    (∀ args, exec (.transmitBadLen args) s =
      .next { s with trace := s.trace ++ [.drop (.transmitBadLength (BitVec.ofNat 4 (args.length + 1)))] }) ∧
    ∀ n : Nibble, 3 ≤ n.toNat → bufRead s 0 = 0x01#8 →
      (n.toNat ≠ 7 → dispatch n s = { s with trace := s.trace ++ [.drop (.transmitBadLength n)] }) ∧
      (n.toNat = 7 → SendReturns s → dispatch n s =
        { s with
          trace := s.trace ++
            [.rfSend (bufRead s 1 ++ bufRead s 2 ++ bufRead s 3 ++ bufRead s 4) (bufRead s 5 ++ bufRead s 6),
              .rfResetAvailable]
          env := { s.env with sendReturns := (s.env.sendReturns.take Config.freeSendReturns).2 } })

/-- R76, R50: exactly one of `RfEnable` and `RfDisable`, by the flag alone. -/
def Obligations.SetRxCallsExactlyOne : Prop :=
  ∀ s : State,
    (∀ flag padding, exec (.setRx flag padding) s =
      .next { s with trace := s.trace ++ [if flag = 0x00#8 then .rfDisable else .rfEnable] }) ∧
    ∀ n : Nibble, 3 ≤ n.toNat → bufRead s 0 = 0x02#8 →
      dispatch n s = { s with trace := s.trace ++ [if bufRead s 1 = 0x00#8 then .rfDisable else .rfEnable] }

/-- R78: an opcode other than 1 and 2 is dropped. -/
def Obligations.IgnoredOpcodeIsDropped : Prop :=
  ∀ s : State,
    (∀ opcode args, exec (.ignored opcode args) s =
      .next { s with trace := s.trace ++ [.drop (.unknownOpcode opcode)] }) ∧
    ∀ n : Nibble, 3 ≤ n.toNat → bufRead s 0 ≠ 0x01#8 → bufRead s 0 ≠ 0x02#8 →
      dispatch n s = { s with trace := s.trace ++ [.drop (.unknownOpcode (bufRead s 0))] }

/-- R79: `ind`, `len` and `buf` stand, whatever the frame; and exactly one of the two actions, or none, for an `RfSend` that
returns (R104; the premise is the model's form of it, log 6). -/
def Obligations.DispatchTakesOneActionOrNone : Prop :=
  ∀ (s : State) (n : Nibble), SameReader s (dispatch n s) ∧
    (SendReturns s → (dispatch n s).loop = s.loop ∧
      ∃ es, portTrace (dispatch n s).trace = portTrace s.trace ++ es ∧
        ((∃ value bits, es = [.rfSend value bits, .rfResetAvailable]) ∨ es = [.rfEnable] ∨ es = [.rfDisable] ∨ es = []))

/-- R81: no dispatch outcome writes to the host; the only `HostWrite` is the report of an RF poll. -/
def Obligations.OnlyRfPollWritesToTheHost : Prop :=
  (∀ (s : State) (n : Nibble), bytesWritten (dispatch n s).trace = bytesWritten s.trace) ∧
  ∀ s t : State, step s = .next t → ∀ bytes, .hostWrite bytes ∈ newEvents s t →
    (takeStepKind s).1 = .rfPoll ∧ ∃ v, bytes = reportBytes v

/-- R75, R80: after every `RfSend` the next transaction is `RfResetAvailable`, in every step from every state where it was so. -/
def Obligations.EverySendIsClearedAtOnce : Prop :=
  ∀ s t : State, sendsAreCleared (decide (s.loop = .sendPending)) s.trace = true → step s = .next t →
    sendsAreCleared (decide (t.loop = .sendPending)) t.trace = true

/-- R28: what a dispatch does depends on no slot outside the frame. -/
def Obligations.DispatchReadsOnlyTheFrame : Prop :=
  ∀ (s t : State) (n : Nibble), n ≠ 0 → s.env = t.env → (∀ j, j < n.toNat → Memory.byteAt s.buf j = Memory.byteAt t.buf j) →
    ∃ es, (dispatch n s).trace = s.trace ++ es ∧ (dispatch n t).trace = t.trace ++ es

/-! ### Outbound encoder -/

/-- R84 in the order of D10: the queries, then, if a value is available, its report and the reset; nothing else changes. -/
def Obligations.RfPollReportsAnAvailableValue : Prop :=
  ∀ s : State,
    ((s.env.available.take Config.freeAvailable).1 = false → exec .rfPoll s = .next
      { s with trace := s.trace ++ [.rfIsAvailable false]
               env := { s.env with available := (s.env.available.take Config.freeAvailable).2 } }) ∧
    ((s.env.available.take Config.freeAvailable).1 = true → ∀ v, (s.env.value.take Config.freeValue).1 = v →
      exec .rfPoll s = .next
        { s with
          trace := s.trace ++
            [.rfIsAvailable true, .rfGetValue v,
              .hostWrite [Config.reportTag, v.extractLsb' 0 8, v.extractLsb' 8 8, v.extractLsb' 16 8,
                v.extractLsb' 24 8, 0x0A], .rfResetAvailable]
          env := { s.env with available := (s.env.available.take Config.freeAvailable).2
                              value := (s.env.value.take Config.freeValue).2 } })

/-- R30, with R52's six bytes: the report carries the value least significant byte first. -/
def Obligations.ReportIsLittleEndian : Prop :=
  ∀ (s : State) (v : Word), ∃ b0 b1 b2 b3 : Byte,
    exec (.rfReport v) s =
      .next { s with trace := s.trace ++ [.hostWrite [Config.reportTag, b0, b1, b2, b3, 0x0A]] } ∧
    v.toNat = b0.toNat + b1.toNat * 2 ^ 8 + b2.toNat * 2 ^ 16 + b3.toNat * 2 ^ 24

/-! ### Frames and completion over all instructions -/

/-- R8, R72, R87: which instructions leave the registers and the buffer alone, and what a header leaves alone. -/
def Obligations.OnlyReaderRulesWriteTheReader : Prop :=
  ∀ (i : Instr) (s t : State), exec i s = .next t →
    ((∀ len, i ≠ .header len) → i ≠ .emptyFrame → (∀ b, i ≠ .payload b) → SameReader s t) ∧
    ((∃ len, i = .header len) ∨ i = .emptyFrame → t.buf = s.buf ∧ t.trace = s.trace ∧ t.env = s.env ∧ t.loop = s.loop)

/-- R37, R93: every instruction completes, PAYLOAD where its slot exists (log 8), and the trace only grows. -/
def Obligations.EveryInstructionCompletes : Prop :=
  ∀ (i : Instr) (s : State), (∀ b, i = .payload b → s.ind ≠ 15) → ∃ t, exec i s = .next t ∧ s.trace <+: t.trace

/-! ### Runs -/

/-- R70: from IDLE, a header and exactly its bytes give one dispatch of those bytes, and IDLE; a header of no bytes gives no
dispatch (C5). The 0x00 of every slot is the spec's decision D3 (log 1); the return of an `RfSend` is log 6. -/
def Obligations.HeaderAndItsBytesGiveOneDispatch : Prop :=
  ∀ (s : State) (h : Byte) (p : List Byte), ReaderInv s → s.loop = .polling → s.ind = s.len → SendReturns s →
    isHeader h = true → p.length = (lengthOf h).toNat →
    ∃ t, Sys2Proof.core.run (p.length + 1) (s.withBytes (h :: p)) = .next t ∧
      t.ind = 0 ∧ t.len = 0 ∧ t.loop = .polling ∧ (∀ a, Memory.byteAt t.buf a = 0x00#8) ∧
      t.trace = s.trace ++ readsOf (h :: p) ++
        (if p = [] then [] else [.dispatch (lengthOf h) p] ++ frameEvents p true)

/-- R114, R113: the next bytes to arrive complete a parked frame, headers among them or not.
The 0x00 of every slot is the spec's decision D3 (log 1); the return of an `RfSend` is log 6. -/
def Obligations.ParkedFrameIsCompletedByAnyBytes : Prop :=
  ∀ (s : State) (p : List Byte), ReaderInv s → s.loop = .polling → s.ind < s.len → SendReturns s →
    p.length = s.len.toNat - s.ind.toNat →
    ∃ t, Sys2Proof.core.run p.length (s.withBytes p) = .next t ∧
      t.ind = 0 ∧ t.len = 0 ∧ t.loop = .polling ∧ (∀ a, Memory.byteAt t.buf a = 0x00#8) ∧
      t.trace = s.trace ++ readsOf p ++ [.dispatch s.len (frameBytes s s.ind ++ p)] ++
        frameEvents (frameBytes s s.ind ++ p) true

/-- R115: fifteen bytes outside the header range leave the reader IDLE, completing and dispatching what was parked. -/
def Obligations.FifteenNonHeaderBytesResynchronise : Prop :=
  ∀ (s : State) (p : List Byte), ReaderInv s → s.loop = .polling → SendReturns s → p.length = 15 →
    (∀ b ∈ p, isHeader b = false) →
    ∃ t, Sys2Proof.core.run 15 (s.withBytes p) = .next t ∧ t.ind = 0 ∧ t.len = 0 ∧ t.loop = .polling ∧
      t.trace = s.trace ++
        (if s.ind < s.len then
          readsOf (p.take (s.len.toNat - s.ind.toNat)) ++
            [.dispatch s.len (frameBytes s s.ind ++ p.take (s.len.toNat - s.ind.toNat))] ++
            frameEvents (frameBytes s s.ind ++ p.take (s.len.toNat - s.ind.toNat)) true
         else []) ++
        discardsOf (p.drop (s.len.toNat - s.ind.toNat))

/-- R71: how the bytes are spread over iterations, and how many NO_BYTE steps fall between them, makes no difference. -/
def Obligations.NoByteStepsMakeNoDifference : Prop :=
  ∀ (s : State) (answers : List (Option Byte)), ReaderInv s →
    ∃ t u, Sys2Proof.core.run answers.length (s.withByteAnswers answers) = .next t ∧
      Sys2Proof.core.run (answers.filterMap id).length (s.withBytes (answers.filterMap id)) = .next u ∧
      t.ind = u.ind ∧ t.len = u.len ∧ t.buf = u.buf ∧ t.loop = u.loop ∧
      withoutHostReads t.trace = withoutHostReads u.trace

/-- R87: RF polls anywhere in a run change neither the reader nor what the inbound path does. `RfResetAvailable`, which both
paths emit, is left out of both traces here; that each TRANSMIT emits its own is EverySendIsClearedAtOnce. -/
def Obligations.RfPollsDoNotDisturbTheInboundPath : Prop :=
  ∀ (s : State) (kinds : List StepKind), ReaderInv s →
    ∃ t u, Sys2Proof.core.run kinds.length (s.withSchedule kinds) = .next t ∧
      Sys2Proof.core.run (kinds.filter (· = .byteStep)).length (s.withSchedule (kinds.filter (· = .byteStep))) = .next u ∧
      t.ind = u.ind ∧ t.len = u.len ∧ t.buf = u.buf ∧ t.loop = u.loop ∧
      inboundEvents t.trace = inboundEvents u.trace

/-- R60: the bytes a run received are those the transport answered, in order, each once. -/
def Obligations.BytesAreReadInArrivalOrder : Prop :=
  ∀ (s : State) (answers : List (Option Byte)), ReaderInv s → s.loop = .polling →
    ∃ t, Sys2Proof.core.run answers.length (s.withByteAnswers answers) = .next t ∧
      (t.loop = .polling → bytesReceived t.trace = bytesReceived s.trace ++ answers.filterMap id)

/-- R68: no number of NO_BYTE and RF poll steps moves a parked frame. -/
def Obligations.ParkedReaderHasNoTimeout : Prop :=
  ∀ (s : State) (kinds : List StepKind) (n : Nat), s.ind ≤ s.len → s.env.host.listed = List.replicate n none →
    kinds.count .byteStep ≤ n →
    ∃ t, Sys2Proof.core.run kinds.length (s.withSchedule kinds) = .next t ∧ SameReader s t ∧ t.loop = s.loop

/-- R68, R114: under any interleaving with RF polls, as many bytes as the frame still needs bring the reader to IDLE. -/
def Obligations.EnoughBytesReachIdle : Prop :=
  ∀ (s : State) (kinds : List StepKind) (bytes : List Byte), ReaderInv s → s.loop = .polling → SendReturns s →
    s.env.host.listed = bytes.map some → kinds.count .byteStep ≤ bytes.length →
    s.len.toNat - s.ind.toNat ≤ kinds.count .byteStep →
    ∃ k t, k ≤ kinds.length ∧ Sys2Proof.core.run k (s.withSchedule kinds) = .next t ∧
      t.loop = .polling ∧ readerMode t = some .idle

/-- R90 (the spec's decision D9): under any weakly fair order of steps, a host that sends as many bytes as the frame still
needs sees the reader reach IDLE. -/
def Obligations.FairSchedulesReachIdle : Prop :=
  ∀ (s : State) (kinds : Nat → StepKind) (bytes : List Byte), ReaderInv s → s.loop = .polling → SendReturns s →
    WeaklyFair kinds → s.env.host.listed = bytes.map some → s.len.toNat - s.ind.toNat ≤ bytes.length →
    ∃ n k t, k ≤ n ∧ Sys2Proof.core.run k (s.withSchedule (firstSteps kinds n)) = .next t ∧
      t.loop = .polling ∧ readerMode t = some .idle

/-! ### The services -/

/-- R75 with R103 clause 2: after a TRANSMIT and no later latch, an RF poll finds nothing and reports nothing. -/
def Obligations.SelfEchoIsSuppressed : Prop :=
  ∀ (s : State) (value : Word) (bits : Half) (before : List ServiceEvent) (pending : Bool), SendReturns s →
    ∃ t u, exec (.transmit value bits) s = .next t ∧ exec .rfPoll t = .next u ∧
      (receiverContract pending (before ++ quietHistory (newEvents s u)) →
        u.trace = s.trace ++ [.rfSend value bits, .rfResetAvailable, .rfIsAvailable false])

/-- R85 with R103 clause 2: a value reported once is not reported again unless the receiver latches again. -/
def Obligations.ReportIsNotRepeated : Prop :=
  ∀ (s : State) (before : List ServiceEvent) (pending : Bool), (s.env.available.take Config.freeAvailable).1 = true →
    ∃ t u, exec .rfPoll s = .next t ∧ exec .rfPoll t = .next u ∧
      (receiverContract pending (before ++ quietHistory (newEvents s u)) →
        bytesWritten (newEvents s t) = reportBytes (s.env.value.take Config.freeValue).1 ∧
          u.trace = t.trace ++ [.rfIsAvailable false])

/-- R77, R103 clause 1: SET_RX emits its call every time (the spec's decision D19), and repeating it leaves the receiver's
mode, read as a function of the trace: the model's form of the premise R103 makes of the service (log 14). -/
def Obligations.RepeatedSetRxKeepsTheReceiverMode : Prop :=
  ∀ (s : State) (flag : Byte) (p q : List Byte),
    ∃ t u, exec (.setRx flag p) s = .next t ∧ exec (.setRx flag q) t = .next u ∧
      (portTrace (newEvents s u)).length = 2 ∧ receiverModeNow t = some (flag != 0x00#8) ∧
      receiverModeNow u = receiverModeNow t ∧ SameReader s u

/-! ### The host's interface -/

/-- Log 11: a word placed by `withFetchWord`, of any width that decodes, is what the next step runs; a placed report is an RF
poll that finds its value. -/
def Obligations.PlacedWordIsWhatRuns : Prop :=
  ∀ (s : State) (w : Nat),
    (decodeTableWord 0 w = some .noByte ∧ ∃ t, step (s.withFetchWord 0 w) = .next t ∧ SameReader s t ∧
      t.trace = s.trace ++ [.hostRead none]) ∧
    (decodeTableWord 8 w = some (decodeIdleByte (BitVec.ofNat 8 w)) ∧ step (s.withFetchWord 8 w) =
      exec (decodeIdleByte (BitVec.ofNat 8 w)) (askHostRead (takeStepKind (s.withFetchWord 8 w)).2).2) ∧
    (∀ i, decodeTableWord 16 w = some i → ∃ t b, step (s.withFetchWord 16 w) = .next t ∧
      t.trace = s.trace ++ [.hostRead (some b), .dispatch (BitVec.ofNat 4 i.frameLength) (rowFrame w)] ++
        actionEvents i true) ∧
    (∀ i, decodeTableWord 48 w = some i → ∃ v t, i = .rfReport v ∧ step (s.withFetchWord 48 w) = .next t ∧
      SameReader s t ∧ t.trace =
        s.trace ++ [.rfIsAvailable true, .rfGetValue v, .hostWrite (reportBytes v), .rfResetAvailable]) ∧
    ∀ nbits, nbits ∉ [0, 8, 16, 48] → decodeTableWord nbits w = none
end

