-- ==== Sys2Proof/Laws/Memory.lean ====
section
/-!
SUPPORT. The buffer as a memory: a read after a write, and the canonical form that every operation keeps (spec/20_memory.md R24, R26).
-/

namespace Sys2Proof.Machine

@[simp] theorem Memory.byteAt_nil (a : Nat) : Memory.byteAt [] a = clearedSlot := rfl

@[simp] theorem Memory.wf_nil : Memory.wf [] = true := rfl

/-- The canonical form, one entry at a time. -/
theorem Memory.wf_cons {k : Nat} {v : Byte} {rest : Memory} :
    Memory.wf ((k, v) :: rest) = true ↔
      k < 15 ∧ v ≠ clearedSlot ∧ (∀ c ∈ rest, k < c.1) ∧ Memory.wf rest = true := by
  rw [Memory.wf]
  simp only [Bool.and_eq_true, decide_eq_true_eq, List.all_eq_true, and_assoc]
  rfl

/-- A slot that lies below every listed one is not listed. -/
theorem Memory.byteAt_of_below {m : Memory} {a : Nat} (h : ∀ c ∈ m, a < c.1) : Memory.byteAt m a = clearedSlot := by
  induction m with
  | nil => rfl
  | cons c rest ih =>
    obtain ⟨k, v⟩ := c
    have hk : a < k := h (k, v) (by simp)
    simp only [Memory.byteAt, if_neg (show ¬ k = a by omega)]
    exact ih fun c hc => h c (by simp [hc])

/-- Every entry of a stored memory was there, or is the slot stored to. -/
theorem Memory.mem_store {m : Memory} {a : Nat} {b : Byte} {c : Host.Cell} (h : c ∈ Memory.store m a b) :
    c ∈ m ∨ c = (a, b) := by
  induction m with
  | nil => simp only [Memory.store] at h; split at h <;> simp_all
  | cons d rest ih =>
    obtain ⟨k, v⟩ := d
    simp only [Memory.store] at h
    split at h
    · split at h
      · exact .inl h
      · rcases List.mem_cons.mp h with h | h
        · exact .inr h
        · exact .inl h
    · split at h
      · split at h
        · exact .inl (List.mem_cons_of_mem _ h)
        · rcases List.mem_cons.mp h with h | h
          · exact .inr h
          · exact .inl (List.mem_cons_of_mem _ h)
      · rcases List.mem_cons.mp h with h | h
        · simp [h]
        · rcases ih h with h | h <;> simp [h]

/-- A store to one of the fifteen slots keeps the canonical form. -/
theorem Memory.wf_store {m : Memory} {a : Nat} {b : Byte} (ha : a < 15) (h : Memory.wf m = true) :
    Memory.wf (Memory.store m a b) = true := by
  induction m with
  | nil =>
    simp only [Memory.store]
    split
    · rfl
    · exact Memory.wf_cons.mpr ⟨ha, ‹_›, by simp, rfl⟩
  | cons d rest ih =>
    obtain ⟨k, v⟩ := d
    obtain ⟨hk, hv, hlt, hr⟩ := Memory.wf_cons.mp h
    simp only [Memory.store]
    split
    · split
      · exact h
      · rename_i hak hb
        refine Memory.wf_cons.mpr ⟨ha, hb, fun c hc => ?_, h⟩
        rcases List.mem_cons.mp hc with rfl | hc
        · exact hak
        · exact Nat.lt_trans hak (hlt c hc)
    · split
      · rename_i hak
        split
        · exact hr
        · rename_i hb
          exact Memory.wf_cons.mpr ⟨ha, hb, fun c hc => hak ▸ hlt c hc, hr⟩
      · rename_i h1 h2
        refine Memory.wf_cons.mpr ⟨hk, hv, fun c hc => ?_, ih hr⟩
        rcases Memory.mem_store hc with hc | rfl
        · exact hlt c hc
        · show k < a; omega

/-- A read of the slot just stored to gives the byte stored. -/
theorem Memory.byteAt_store_same {m : Memory} {a : Nat} {b : Byte} (h : Memory.wf m = true) :
    Memory.byteAt (Memory.store m a b) a = b := by
  induction m with
  | nil => simp only [Memory.store]; split <;> simp_all [Memory.byteAt]
  | cons d rest ih =>
    obtain ⟨k, v⟩ := d
    obtain ⟨hk, hv, hlt, hr⟩ := Memory.wf_cons.mp h
    simp only [Memory.store]
    split
    · rename_i hak
      split
      · rename_i hb
        rw [hb]
        exact Memory.byteAt_of_below fun c hc => by
          rcases List.mem_cons.mp hc with rfl | hc
          · exact hak
          · exact Nat.lt_trans hak (hlt c hc)
      · simp [Memory.byteAt]
    · split
      · rename_i hak
        split
        · rename_i hb
          rw [hb]
          exact Memory.byteAt_of_below fun c hc => hak ▸ hlt c hc
        · simp [Memory.byteAt]
      · rename_i h1 h2
        simp only [Memory.byteAt, if_neg (show ¬ k = a by omega)]
        exact ih hr

/-- A store leaves every other slot alone. -/
theorem Memory.byteAt_store_other {m : Memory} {a c : Nat} {b : Byte} (h : c ≠ a) :
    Memory.byteAt (Memory.store m a b) c = Memory.byteAt m c := by
  have hac : ¬ a = c := fun e => h e.symm
  induction m with
  | nil => simp only [Memory.store]; split <;> simp [Memory.byteAt, hac]
  | cons d rest ih =>
    obtain ⟨k, v⟩ := d
    simp only [Memory.store]
    split
    · split <;> simp [Memory.byteAt, hac]
    · split
      · rename_i hak
        subst hak
        split <;> simp [Memory.byteAt, hac]
      · simp only [Memory.byteAt, ih]

end Sys2Proof.Machine
end

