-- ==== Sys2Proof/Laws/State.lean ====
section
/-!
SUPPORT. One lemma per field per update of the state, so that no proof unfolds a record update.
-/

namespace Sys2Proof.Machine

section
variable (s : State) (v : Nibble) (m : Memory) (l : LoopStatus) (e : Environment) (ev : Event)

@[simp] theorem withInd_ind : (s.withInd v).ind = v := rfl
@[simp] theorem withInd_len : (s.withInd v).len = s.len := rfl
@[simp] theorem withInd_buf : (s.withInd v).buf = s.buf := rfl
@[simp] theorem withInd_trace : (s.withInd v).trace = s.trace := rfl
@[simp] theorem withInd_loop : (s.withInd v).loop = s.loop := rfl
@[simp] theorem withInd_env : (s.withInd v).env = s.env := rfl
@[simp] theorem withLen_ind : (s.withLen v).ind = s.ind := rfl
@[simp] theorem withLen_len : (s.withLen v).len = v := rfl
@[simp] theorem withLen_buf : (s.withLen v).buf = s.buf := rfl
@[simp] theorem withLen_trace : (s.withLen v).trace = s.trace := rfl
@[simp] theorem withLen_loop : (s.withLen v).loop = s.loop := rfl
@[simp] theorem withLen_env : (s.withLen v).env = s.env := rfl
@[simp] theorem withBuf_ind : (s.withBuf m).ind = s.ind := rfl
@[simp] theorem withBuf_len : (s.withBuf m).len = s.len := rfl
@[simp] theorem withBuf_buf : (s.withBuf m).buf = m := rfl
@[simp] theorem withBuf_trace : (s.withBuf m).trace = s.trace := rfl
@[simp] theorem withBuf_loop : (s.withBuf m).loop = s.loop := rfl
@[simp] theorem withBuf_env : (s.withBuf m).env = s.env := rfl
@[simp] theorem withLoop_ind : (s.withLoop l).ind = s.ind := rfl
@[simp] theorem withLoop_len : (s.withLoop l).len = s.len := rfl
@[simp] theorem withLoop_buf : (s.withLoop l).buf = s.buf := rfl
@[simp] theorem withLoop_trace : (s.withLoop l).trace = s.trace := rfl
@[simp] theorem withLoop_loop : (s.withLoop l).loop = l := rfl
@[simp] theorem withLoop_env : (s.withLoop l).env = s.env := rfl
@[simp] theorem withEnv_ind : (s.withEnv e).ind = s.ind := rfl
@[simp] theorem withEnv_len : (s.withEnv e).len = s.len := rfl
@[simp] theorem withEnv_buf : (s.withEnv e).buf = s.buf := rfl
@[simp] theorem withEnv_trace : (s.withEnv e).trace = s.trace := rfl
@[simp] theorem withEnv_loop : (s.withEnv e).loop = s.loop := rfl
@[simp] theorem withEnv_env : (s.withEnv e).env = e := rfl
@[simp] theorem emit_ind : (s.emit ev).ind = s.ind := rfl
@[simp] theorem emit_len : (s.emit ev).len = s.len := rfl
@[simp] theorem emit_buf : (s.emit ev).buf = s.buf := rfl
@[simp] theorem emit_trace : (s.emit ev).trace = s.trace ++ [ev] := rfl
@[simp] theorem emit_loop : (s.emit ev).loop = s.loop := rfl
@[simp] theorem emit_env : (s.emit ev).env = s.env := rfl

@[simp] theorem clearReader_ind : (clearReader s).ind = 0 := rfl
@[simp] theorem clearReader_len : (clearReader s).len = 0 := rfl
@[simp] theorem clearReader_buf : (clearReader s).buf = [] := rfl
@[simp] theorem clearReader_trace : (clearReader s).trace = s.trace := rfl
@[simp] theorem clearReader_loop : (clearReader s).loop = s.loop := rfl
@[simp] theorem clearReader_env : (clearReader s).env = s.env := rfl

end

/-- Two states with the same six fields are one state. -/
theorem State.eq_of_fields {s t : State} (h1 : s.ind = t.ind) (h2 : s.len = t.len) (h3 : s.buf = t.buf)
    (h4 : s.trace = t.trace) (h5 : s.loop = t.loop) (h6 : s.env = t.env) : s = t := by
  cases s; cases t; simp_all

end Sys2Proof.Machine
end

