-- ==== Sys2Proof/Laws/Ops.lean ====
section
/-!
SUPPORT. What each shared operation does, once: the queries, the sends, the buffer's reads and writes.
-/

namespace Sys2Proof.Machine

/-- A listed answer is taken first. -/
@[simp] theorem Source.take_cons {α : Type} (free : Nat → α) (a : α) (rest : List α) (n : Nat) :
    Source.take free ⟨a :: rest, n⟩ = (a, ⟨rest, n⟩) := rfl

/-- Where nothing is listed, the answer is free. -/
@[simp] theorem Source.take_nil {α : Type} (free : Nat → α) (n : Nat) :
    Source.take free ⟨[], n⟩ = (free n, ⟨[], n + 1⟩) := rfl

section
variable (s : State)

@[simp] theorem takeStepKind_ind : (takeStepKind s).2.ind = s.ind := rfl
@[simp] theorem takeStepKind_len : (takeStepKind s).2.len = s.len := rfl
@[simp] theorem takeStepKind_buf : (takeStepKind s).2.buf = s.buf := rfl
@[simp] theorem takeStepKind_trace : (takeStepKind s).2.trace = s.trace := rfl
@[simp] theorem takeStepKind_loop : (takeStepKind s).2.loop = s.loop := rfl
@[simp] theorem askHostRead_ind : (askHostRead s).2.ind = s.ind := rfl
@[simp] theorem askHostRead_len : (askHostRead s).2.len = s.len := rfl
@[simp] theorem askHostRead_buf : (askHostRead s).2.buf = s.buf := rfl
@[simp] theorem askHostRead_trace : (askHostRead s).2.trace = s.trace ++ [.hostRead (askHostRead s).1] := rfl
@[simp] theorem askHostRead_loop : (askHostRead s).2.loop = s.loop := rfl
@[simp] theorem askRfIsAvailable_ind : (askRfIsAvailable s).2.ind = s.ind := rfl
@[simp] theorem askRfIsAvailable_len : (askRfIsAvailable s).2.len = s.len := rfl
@[simp] theorem askRfIsAvailable_buf : (askRfIsAvailable s).2.buf = s.buf := rfl
@[simp] theorem askRfIsAvailable_trace :
    (askRfIsAvailable s).2.trace = s.trace ++ [.rfIsAvailable (askRfIsAvailable s).1] := rfl
@[simp] theorem askRfIsAvailable_loop : (askRfIsAvailable s).2.loop = s.loop := rfl
@[simp] theorem askRfGetValue_ind : (askRfGetValue s).2.ind = s.ind := rfl
@[simp] theorem askRfGetValue_len : (askRfGetValue s).2.len = s.len := rfl
@[simp] theorem askRfGetValue_buf : (askRfGetValue s).2.buf = s.buf := rfl
@[simp] theorem askRfGetValue_trace :
    (askRfGetValue s).2.trace = s.trace ++ [.rfGetValue (askRfGetValue s).1] := rfl
@[simp] theorem askRfGetValue_loop : (askRfGetValue s).2.loop = s.loop := rfl
@[simp] theorem issueRfSend_ind (v : Word) (b : Half) : (issueRfSend v b s).2.ind = s.ind := rfl
@[simp] theorem issueRfSend_len (v : Word) (b : Half) : (issueRfSend v b s).2.len = s.len := rfl
@[simp] theorem issueRfSend_buf (v : Word) (b : Half) : (issueRfSend v b s).2.buf = s.buf := rfl
@[simp] theorem issueRfSend_trace (v : Word) (b : Half) : (issueRfSend v b s).2.trace = s.trace ++ [.rfSend v b] := rfl
@[simp] theorem issueRfSend_loop (v : Word) (b : Half) : (issueRfSend v b s).2.loop = s.loop := rfl

end

/-- A write succeeds exactly at the fifteen slots, and changes only the buffer. -/
theorem bufWrite_cases {s t : State} {i : Nat} {b : Byte} (h : bufWrite s i b = some t) :
    i < 15 ∧ t = s.withBuf (Memory.store s.buf i b) := by
  unfold bufWrite at h
  split at h
  · exact ⟨‹_›, (Option.some.inj h).symm⟩
  · cases h

/-- A write outside the fifteen slots fails. -/
theorem bufWrite_none {s : State} {i : Nat} {b : Byte} (h : 15 ≤ i) : bufWrite s i b = none := by
  exact if_neg (Nat.not_lt.mpr h)

/-- A write to one of the fifteen slots. -/
theorem bufWrite_some {s : State} {i : Nat} {b : Byte} (h : i < 15) :
    bufWrite s i b = some (s.withBuf (Memory.store s.buf i b)) := by
  exact if_pos h

@[simp] theorem frameBytes_length (s : State) (n : Nibble) : (frameBytes s n).length = n.toNat := by
  simp [frameBytes]

/-- The frame bytes depend on the buffer alone. -/
theorem frameBytes_congr {s t : State} {n : Nibble}
    (h : ∀ j, j < n.toNat → Memory.byteAt s.buf j = Memory.byteAt t.buf j) : frameBytes s n = frameBytes t n := by
  simp only [frameBytes]
  exact List.map_congr_left fun j hj => h j (List.mem_range.mp hj)

end Sys2Proof.Machine
end

