-- ==== Sys2Proof/Laws/Dispatcher.lean ====
section
/-!
SUPPORT. Everything an action and a dispatch can do (spec/41_dispatcher.md R72 to R79), said once.
-/

namespace Sys2Proof.Machine

@[simp] theorem dropInput_ind (r : DropReason) (s : State) : (dropInput r s).ind = s.ind := rfl
@[simp] theorem dropInput_len (r : DropReason) (s : State) : (dropInput r s).len = s.len := rfl
@[simp] theorem dropInput_buf (r : DropReason) (s : State) : (dropInput r s).buf = s.buf := rfl
@[simp] theorem dropInput_trace (r : DropReason) (s : State) : (dropInput r s).trace = s.trace ++ [.drop r] := rfl
@[simp] theorem dropInput_loop (r : DropReason) (s : State) : (dropInput r s).loop = s.loop := rfl
@[simp] theorem dropInput_env (r : DropReason) (s : State) : (dropInput r s).env = s.env := rfl

/-- Whether the next `RfSend` returns is the environment's next answer. -/
theorem issueRfSend_returns (value : Word) (bits : Half) (s : State) :
    (issueRfSend value bits s).1 = (s.env.sendReturns.take Config.freeSendReturns).1 := rfl

/-- The Transmit Action either returns, having reset the receiver, or leaves the step inside its `RfSend`. -/
theorem transmitAction_cases (value : Word) (bits : Half) (s : State) :
    ((issueRfSend value bits s).1 = true ∧
      transmitAction value bits s = (issueRfSend value bits s).2.emit .rfResetAvailable) ∨
    ((issueRfSend value bits s).1 = false ∧
      transmitAction value bits s = (issueRfSend value bits s).2.withLoop .sendPending) := by
  cases h : (issueRfSend value bits s).1 <;> simp [transmitAction, h]

/-- The Receiver-Mode Action appends one event and changes nothing else. -/
theorem receiverModeAction_eq (on : Bool) (s : State) :
    receiverModeAction on s = s.emit (if on then .rfEnable else .rfDisable) := by
  cases on <;> rfl

/-- The flag is off exactly at 0x00 (R50). -/
theorem flagOn_eq (flag : Byte) : flagOn flag = decide (flag ≠ 0x00#8) := by
  by_cases h : flag = 0x00#8 <;> simp [flagOn, h]

/-- The five ways a dispatch goes (R55, R72). -/
theorem dispatch_cases (n : Nibble) (s : State) :
    (n.toNat < 3 ∧ dispatch n s = dropInput (.shortFrame n) s) ∨
    (3 ≤ n.toNat ∧ n.toNat ≠ 7 ∧ bufRead s 0 = 0x01#8 ∧ dispatch n s = dropInput (.transmitBadLength n) s) ∨
    (n.toNat = 7 ∧ bufRead s 0 = 0x01#8 ∧ dispatch n s =
      transmitAction (assembleValue (bufRead s 1) (bufRead s 2) (bufRead s 3) (bufRead s 4))
        (assembleBits (bufRead s 5) (bufRead s 6)) s) ∨
    (3 ≤ n.toNat ∧ bufRead s 0 = 0x02#8 ∧ dispatch n s = receiverModeAction (flagOn (bufRead s 1)) s) ∨
    (3 ≤ n.toNat ∧ bufRead s 0 ≠ 0x01#8 ∧ bufRead s 0 ≠ 0x02#8 ∧
      dispatch n s = dropInput (.unknownOpcode (bufRead s 0)) s) := by
  by_cases h3 : n.toNat < 3
  · exact .inl ⟨h3, if_pos h3⟩
  have d3 : dispatch n s = (if bufRead s 0 = Config.opTransmit then transmitFromBuffer n s
      else if bufRead s 0 = Config.opSetRx then setRxFromBuffer s
      else dropInput (.unknownOpcode (bufRead s 0)) s) := if_neg h3
  by_cases h1 : bufRead s 0 = 0x01#8
  · have d1 : dispatch n s = transmitFromBuffer n s := d3.trans (if_pos h1)
    by_cases h7 : n.toNat = 7
    · exact .inr (.inr (.inl ⟨h7, h1, d1.trans (if_neg (not_not.mpr h7))⟩))
    · exact .inr (.inl ⟨by omega, h7, h1, d1.trans (if_pos h7)⟩)
  have d1 := d3.trans (if_neg h1)
  by_cases h2 : bufRead s 0 = 0x02#8
  · exact .inr (.inr (.inr (.inl ⟨by omega, h2, d1.trans (if_pos h2)⟩)))
  · exact .inr (.inr (.inr (.inr ⟨by omega, h1, h2, d1.trans (if_neg h2)⟩)))

/-- The Transmit Action writes no register and no slot (R72). -/
@[simp] theorem transmitAction_reader (value : Word) (bits : Half) (s : State) :
    (transmitAction value bits s).ind = s.ind ∧ (transmitAction value bits s).len = s.len ∧
      (transmitAction value bits s).buf = s.buf := by
  rcases transmitAction_cases value bits s with ⟨-, h⟩ | ⟨-, h⟩ <;> rw [h] <;> exact ⟨rfl, rfl, rfl⟩

/-- A dispatch writes no register and no slot (R72). -/
theorem dispatch_reader (n : Nibble) (s : State) :
    (dispatch n s).ind = s.ind ∧ (dispatch n s).len = s.len ∧ (dispatch n s).buf = s.buf := by
  rcases dispatch_cases n s with ⟨-, h⟩ | ⟨-, -, -, h⟩ | ⟨-, -, h⟩ | ⟨-, -, h⟩ | ⟨-, -, -, h⟩ <;> rw [h]
  · exact ⟨rfl, rfl, rfl⟩
  · exact ⟨rfl, rfl, rfl⟩
  · exact transmitAction_reader _ _ _
  · rw [receiverModeAction_eq]; exact ⟨rfl, rfl, rfl⟩
  · exact ⟨rfl, rfl, rfl⟩

/-- A dispatch takes no answer but whether its `RfSend` returns (R91). -/
theorem dispatch_env (n : Nibble) (s : State) :
    (dispatch n s).env.schedule = s.env.schedule ∧ (dispatch n s).env.host = s.env.host ∧
      (dispatch n s).env.available = s.env.available ∧ (dispatch n s).env.value = s.env.value := by
  rcases dispatch_cases n s with ⟨-, h⟩ | ⟨-, -, -, h⟩ | ⟨-, -, h⟩ | ⟨-, -, h⟩ | ⟨-, -, -, h⟩ <;> rw [h]
  · exact ⟨rfl, rfl, rfl, rfl⟩
  · exact ⟨rfl, rfl, rfl, rfl⟩
  · rcases transmitAction_cases (assembleValue (bufRead s 1) (bufRead s 2) (bufRead s 3) (bufRead s 4))
      (assembleBits (bufRead s 5) (bufRead s 6)) s with ⟨-, e⟩ | ⟨-, e⟩ <;> rw [e] <;> exact ⟨rfl, rfl, rfl, rfl⟩
  · rw [receiverModeAction_eq]; exact ⟨rfl, rfl, rfl, rfl⟩
  · exact ⟨rfl, rfl, rfl, rfl⟩

/-- A dispatch stays inside an `RfSend` only on a TRANSMIT frame. -/
theorem dispatch_loop {n : Nibble} {s : State} (hs : s.loop = .polling) (h : (dispatch n s).loop = .sendPending) :
    n.toNat = 7 ∧ bufRead s 0 = 0x01#8 := by
  rcases dispatch_cases n s with ⟨-, e⟩ | ⟨-, -, -, e⟩ | ⟨h7, h1, -⟩ | ⟨-, -, e⟩ | ⟨-, -, -, e⟩
  · rw [e] at h; simp [hs] at h
  · rw [e] at h; simp [hs] at h
  · exact ⟨h7, h1⟩
  · rw [e, receiverModeAction_eq] at h; simp [hs] at h
  · rw [e] at h; simp [hs] at h

end Sys2Proof.Machine
end

