-- ==== Sys2Proof/Laws/Encoding.lean ====
section
/-!
SUPPORT. The operand forms and their inverses, and the rows of the frame table one at a time.
-/

namespace Sys2Proof

/-- A byte of a value, as a number. -/
theorem valueByte_toNat (v : Word) (k : Nat) : (valueByte v k).toNat = v.toNat / 2 ^ (8 * k) % 256 := by
  simp [valueByte, BitVec.extractLsb'_toNat, Nat.shiftRight_eq_div_pow]

/-- The value of R48, as a number. -/
theorem assembleValue_toNat (f1 f2 f3 f4 : Byte) :
    (assembleValue f1 f2 f3 f4).toNat = f1.toNat * 2 ^ 24 + f2.toNat * 2 ^ 16 + f3.toNat * 2 ^ 8 + f4.toNat := by
  have h2 := f2.isLt; have h3 := f3.isLt; have h4 := f4.isLt
  simp only [assembleValue, BitVec.toNat_append]
  rw [← Nat.shiftLeft_add_eq_or_of_lt h2, ← Nat.shiftLeft_add_eq_or_of_lt h3, ← Nat.shiftLeft_add_eq_or_of_lt h4]
  simp only [Nat.shiftLeft_eq]; omega

/-- The bit-length of R49, as a number. -/
theorem assembleBits_toNat (f5 f6 : Byte) : (assembleBits f5 f6).toNat = f5.toNat * 2 ^ 8 + f6.toNat := by
  have h6 := f6.isLt
  simp only [assembleBits, BitVec.toNat_append]
  rw [← Nat.shiftLeft_add_eq_or_of_lt h6, Nat.shiftLeft_eq]

/-- A value's bytes, most significant first, assemble to it. -/
theorem assembleValue_valueByte (v : Word) :
    assembleValue (valueByte v 3) (valueByte v 2) (valueByte v 1) (valueByte v 0) = v := by
  have h := v.isLt
  apply BitVec.eq_of_toNat_eq
  simp only [assembleValue_toNat, valueByte_toNat]; omega

/-- The bytes of an assembled value are the bytes assembled. -/
theorem valueByte_assembleValue (f1 f2 f3 f4 : Byte) :
    valueByte (assembleValue f1 f2 f3 f4) 3 = f1 ∧ valueByte (assembleValue f1 f2 f3 f4) 2 = f2 ∧
      valueByte (assembleValue f1 f2 f3 f4) 1 = f3 ∧ valueByte (assembleValue f1 f2 f3 f4) 0 = f4 := by
  have h1 := f1.isLt; have h2 := f2.isLt; have h3 := f3.isLt; have h4 := f4.isLt
  refine ⟨?_, ?_, ?_, ?_⟩ <;>
  · apply BitVec.eq_of_toNat_eq
    simp only [assembleValue_toNat, valueByte_toNat]; omega

/-- A bit-length's bytes, high first, assemble to it. -/
theorem assembleBits_extract (v : Half) : assembleBits (v.extractLsb' 8 8) (v.extractLsb' 0 8) = v := by
  have h := v.isLt
  apply BitVec.eq_of_toNat_eq
  simp only [assembleBits_toNat, BitVec.extractLsb'_toNat, Nat.shiftRight_eq_div_pow]; omega

/-- The bytes of an assembled bit-length are the bytes assembled. -/
theorem extract_assembleBits (f5 f6 : Byte) :
    (assembleBits f5 f6).extractLsb' 8 8 = f5 ∧ (assembleBits f5 f6).extractLsb' 0 8 = f6 := by
  have h5 := f5.isLt; have h6 := f6.isLt
  refine ⟨?_, ?_⟩ <;>
  · apply BitVec.eq_of_toNat_eq
    simp only [assembleBits_toNat, BitVec.extractLsb'_toNat, Nat.shiftRight_eq_div_pow]; omega

/-- A header byte carries its length and is a header (R43, R51). -/
theorem headerByte_spec (n : Nibble) : lengthOf (headerByte n) = n ∧ isHeader (headerByte n) = true := by
  revert n; decide

/-- A header is the header byte of its length (R43). -/
theorem headerByte_lengthOf {b : Byte} : isHeader b = true → headerByte (lengthOf b) = b := by
  revert b; decide

/-- Well-formedness of a header row: HEADER has a length, EMPTY_FRAME none (R63). -/
theorem wellFormed_header (len : Nibble) : (Instr.header len).wellFormed = true ↔ len ≠ 0 := decide_eq_true_iff

/-- The lengths at which the opcode counts are 3 to 15 (R55). -/
theorem dispatchable_iff (n : Nat) : dispatchable n = true ↔ 3 ≤ n ∧ n ≤ 15 := by
  unfold dispatchable
  exact Bool.and_eq_true_iff.trans (and_congr decide_eq_true_iff decide_eq_true_iff)

/-- Well-formedness of a TRANSMIT_BADLEN: length 3 to 15 and not 7 (R55). -/
theorem wellFormed_transmitBadLen (args : List Byte) :
    (Instr.transmitBadLen args).wellFormed = true ↔
      (3 ≤ args.length + 1 ∧ args.length + 1 ≤ 15) ∧ args.length + 1 ≠ 7 :=
  Bool.and_eq_true_iff.trans (and_congr (dispatchable_iff _) decide_eq_true_iff)

/-- Well-formedness of a SET_RX: length 3 to 15 (R47). -/
theorem wellFormed_setRx (flag : Byte) (padding : List Byte) :
    (Instr.setRx flag padding).wellFormed = true ↔ 3 ≤ padding.length + 2 ∧ padding.length + 2 ≤ 15 :=
  dispatchable_iff _

/-- Well-formedness of an IGNORED: length 3 to 15, opcode not 1 and not 2 (R55). -/
theorem wellFormed_ignored (op : Byte) (args : List Byte) :
    (Instr.ignored op args).wellFormed = true ↔
      ((3 ≤ args.length + 1 ∧ args.length + 1 ≤ 15) ∧ op ≠ Config.opTransmit) ∧ op ≠ Config.opSetRx :=
  Bool.and_eq_true_iff.trans (and_congr
    (Bool.and_eq_true_iff.trans (and_congr (dispatchable_iff _) decide_eq_true_iff)) decide_eq_true_iff)

/-- Well-formedness of a SHORT: length 1 or 2 (R73). -/
theorem wellFormed_short (op : Byte) (args : List Byte) :
    (Instr.short op args).wellFormed = true ↔ args.length + 1 < 3 := decide_eq_true_iff

/-- Opcode 1 with other than six arguments. -/
theorem decodeOpcodeOne_badLen {args : List Byte} (h : args.length ≠ 6) :
    decodeOpcodeOne args = .transmitBadLen args := by
  unfold decodeOpcodeOne
  split
  · exact absurd rfl h
  · rfl

section
variable {op : Byte} {args : List Byte}

/-- Row SHORT of R55. -/
theorem decodeFrame_short (h : args.length + 1 < 3) : decodeFrame (op :: args) = .ok (.short op args) := by
  exact (if_neg (show ¬ 15 < args.length + 1 by omega)).trans (if_pos h)

/-- A frame of 3 to 15 bytes is decoded by its opcode (R55). -/
theorem decodeFrame_opcode (h3 : 3 ≤ args.length + 1) (h15 : args.length + 1 ≤ 15) :
    decodeFrame (op :: args) =
      if op = Config.opTransmit then .ok (decodeOpcodeOne args)
      else if op = Config.opSetRx then decodeOpcodeTwo args
      else .ok (.ignored op args) := by
  exact (if_neg (show ¬ 15 < args.length + 1 by omega)).trans (if_neg (show ¬ args.length + 1 < 3 by omega))

end

end Sys2Proof
end

