-- ==== Sys2Proof/Laws/PerInstr.lean ====
section
/-!
SUPPORT. Statements about every instruction as syntax, one lemma per constructor.
-/

namespace Sys2Proof.Laws.EncodeSize

/-- An instruction is spelled by as many bytes as its format has: one, `N + 1` (R42), six (R52), or none. -/
def Statement (i : Instr) : Prop := (encode i).length = i.wireLength

theorem header (len : Nibble) : Statement (.header len) := rfl
theorem emptyFrame : Statement .emptyFrame := rfl
theorem discardLow (x : BitVec 6) : Statement (.discardLow x) := rfl
theorem discardFifties (x : BitVec 4) : Statement (.discardFifties x) := rfl
theorem discardSixties (x : BitVec 5) : Statement (.discardSixties x) := rfl
theorem discardHigh (x : BitVec 7) : Statement (.discardHigh x) := rfl
theorem payload (b : Byte) : Statement (.payload b) := rfl
theorem noByte : Statement .noByte := rfl
theorem transmit (value : Word) (bits : Half) : Statement (.transmit value bits) := rfl
theorem transmitBadLen (args : List Byte) : Statement (.transmitBadLen args) := rfl
theorem setRx (flag : Byte) (padding : List Byte) : Statement (.setRx flag padding) := rfl
theorem ignored (opcode : Byte) (args : List Byte) : Statement (.ignored opcode args) := rfl
theorem short (first : Byte) (args : List Byte) : Statement (.short first args) := rfl
theorem rfPoll : Statement .rfPoll := rfl
theorem rfReport (v : Word) : Statement (.rfReport v) := rfl

end Sys2Proof.Laws.EncodeSize
end

