-- ==== Sys2Proof/Laws/Reader.lean ====
section
/-!
SUPPORT. Everything a completion, a fetch and a step can do (spec/40_frame_reader.md R59, R65, R66), said once.
-/

namespace Sys2Proof.Machine

/-- A completion clears the reader, unless its dispatch is inside an `RfSend` that does not return. -/
theorem complete_cases (s : State) :
    let done := dispatch s.len (s.emit (.dispatch s.len (frameBytes s s.len)))
    (done.loop = .polling ∧ complete s = clearReader done) ∨ (done.loop = .sendPending ∧ complete s = done) := by
  intro done
  cases h : done.loop
  · exact .inl ⟨rfl, by simp only [complete]; rw [show (dispatch s.len _).loop = _ from h]⟩
  · exact .inr ⟨rfl, by simp only [complete]; rw [show (dispatch s.len _).loop = _ from h]⟩

/-- A completion takes no answer but whether its `RfSend` returns (R91). -/
theorem complete_env (s : State) :
    (complete s).env.schedule = s.env.schedule ∧ (complete s).env.host = s.env.host := by
  obtain ⟨a, b, -, -⟩ := dispatch_env s.len (s.emit (.dispatch s.len (frameBytes s s.len)))
  rcases complete_cases s with ⟨-, h⟩ | ⟨-, h⟩ <;> rw [h] <;> exact ⟨a, b⟩

/-- PAYLOAD where its slot exists: store, advance, and complete at `len`. -/
theorem execPayload_eq {s : State} {b : Byte} (h : s.ind.toNat < 15) :
    execPayload b s = .next
      (let moved := (s.withBuf (Memory.store s.buf s.ind.toNat b)).withInd (s.ind + 1)
       if s.ind + 1 = s.len then complete moved else moved) := by
  simp only [execPayload, bufWrite_some h]; rfl

/-- What a byte decodes to (R53). -/
theorem decodeInput_some {ind len : Nibble} {b : Byte} {i : Instr} (h : decodeInput ind len (some b) = .ok i) :
    (ind < len ∧ i = .payload b) ∨ (ind = len ∧ i = decodeIdleByte b) := by
  simp only [decodeInput] at h
  split at h
  · exact .inl ⟨‹_›, (Except.ok.inj h).symm⟩
  · split at h
    · exact .inr ⟨‹_›, (Except.ok.inj h).symm⟩
    · cases h

/-- What a byte decodes to while IDLE: a header's length, or a discarded byte whose spelling is the byte (R53, R54). -/
theorem decodeIdleByte_cases (b : Byte) :
    (isHeader b = true ∧ lengthOf b = 0 ∧ decodeIdleByte b = .emptyFrame) ∨
    (isHeader b = true ∧ lengthOf b ≠ 0 ∧ decodeIdleByte b = .header (lengthOf b)) ∨
    (isHeader b = false ∧ ∃ x, decodeIdleByte b = .discardLow x ∧ 0b00#2 ++ x = b) ∨
    (isHeader b = false ∧ ∃ x, decodeIdleByte b = .discardFifties x ∧ 0b0101#4 ++ x = b) ∨
    (isHeader b = false ∧ ∃ x, decodeIdleByte b = .discardSixties x ∧ 0b011#3 ++ x = b) ∨
    (isHeader b = false ∧ ∃ x, decodeIdleByte b = .discardHigh x ∧ 0b1#1 ++ x = b) := by
  have key : ∀ b : Byte,
      (isHeader b = true ∧ lengthOf b = 0 ∧ decodeIdleByte b = .emptyFrame) ∨
      (isHeader b = true ∧ lengthOf b ≠ 0 ∧ decodeIdleByte b = .header (lengthOf b)) ∨
      (isHeader b = false ∧ decodeIdleByte b = .discardLow (b.extractLsb' 0 6) ∧ 0b00#2 ++ b.extractLsb' 0 6 = b) ∨
      (isHeader b = false ∧ decodeIdleByte b = .discardFifties (b.extractLsb' 0 4) ∧
        0b0101#4 ++ b.extractLsb' 0 4 = b) ∨
      (isHeader b = false ∧ decodeIdleByte b = .discardSixties (b.extractLsb' 0 5) ∧
        0b011#3 ++ b.extractLsb' 0 5 = b) ∨
      (isHeader b = false ∧ decodeIdleByte b = .discardHigh (b.extractLsb' 0 7) ∧ 0b1#1 ++ b.extractLsb' 0 7 = b) := by
    decide
  rcases key b with h | h | ⟨h, d, e⟩ | ⟨h, d, e⟩ | ⟨h, d, e⟩ | ⟨h, d, e⟩
  · exact .inl h
  · exact .inr (.inl h)
  · exact .inr (.inr (.inl ⟨h, _, d, e⟩))
  · exact .inr (.inr (.inr (.inl ⟨h, _, d, e⟩)))
  · exact .inr (.inr (.inr (.inr (.inl ⟨h, _, d, e⟩))))
  · exact .inr (.inr (.inr (.inr (.inr ⟨h, _, d, e⟩))))

/-- What a byte does while IDLE: a header opens a frame of its length, every other byte is dropped (R63, R64). -/
theorem exec_decodeIdleByte (b : Byte) (s : State) :
    (isHeader b = true ∧ exec (decodeIdleByte b) s = .next (openFrame (lengthOf b) s)) ∨
    (isHeader b = false ∧ exec (decodeIdleByte b) s = .next (dropInput (.hdrOutOfRange b) s)) := by
  rcases decodeIdleByte_cases b with ⟨h, l, d⟩ | ⟨h, -, d⟩ | ⟨h, x, d, e⟩ | ⟨h, x, d, e⟩ | ⟨h, x, d, e⟩ | ⟨h, x, d, e⟩
  · exact .inl ⟨h, by rw [d, l]; rfl⟩
  · exact .inl ⟨h, by rw [d]; rfl⟩
  · exact .inr ⟨h, by rw [d, ← e]; rfl⟩
  · exact .inr ⟨h, by rw [d, ← e]; rfl⟩
  · exact .inr ⟨h, by rw [d, ← e]; rfl⟩
  · exact .inr ⟨h, by rw [d, ← e]; rfl⟩

@[simp] theorem writeReport_ind (v : Word) (s : State) : (writeReport v s).ind = s.ind := rfl
@[simp] theorem writeReport_len (v : Word) (s : State) : (writeReport v s).len = s.len := rfl
@[simp] theorem writeReport_buf (v : Word) (s : State) : (writeReport v s).buf = s.buf := rfl
@[simp] theorem writeReport_trace (v : Word) (s : State) :
    (writeReport v s).trace = s.trace ++ [.hostWrite (reportBytes v)] := rfl
@[simp] theorem writeReport_loop (v : Word) (s : State) : (writeReport v s).loop = s.loop := rfl
@[simp] theorem openFrame_ind (n : Nibble) (s : State) : (openFrame n s).ind = 0 := rfl
@[simp] theorem openFrame_len (n : Nibble) (s : State) : (openFrame n s).len = n := rfl
@[simp] theorem openFrame_buf (n : Nibble) (s : State) : (openFrame n s).buf = s.buf := rfl
@[simp] theorem openFrame_trace (n : Nibble) (s : State) : (openFrame n s).trace = s.trace := rfl
@[simp] theorem openFrame_loop (n : Nibble) (s : State) : (openFrame n s).loop = s.loop := rfl
@[simp] theorem openFrame_env (n : Nibble) (s : State) : (openFrame n s).env = s.env := rfl

/-- RF_POLL finds nothing, or reports what it finds (R84). -/
theorem execRfPoll_cases (s : State) :
    ((askRfIsAvailable s).1 = false ∧ execRfPoll s = .next (askRfIsAvailable s).2) ∨
    ((askRfIsAvailable s).1 = true ∧ execRfPoll s =
      .next ((writeReport (askRfGetValue (askRfIsAvailable s).2).1 (askRfGetValue (askRfIsAvailable s).2).2).emit
        .rfResetAvailable)) := by
  cases h : (askRfIsAvailable s).1 <;> simp [execRfPoll, h]

/-- The state a byte's instruction runs in: the step kind and the answer taken, the `HostRead` in the trace (R59). -/
def afterHostRead (s : State) : State := (askHostRead (takeStepKind s).2).2

/-- The answer the next `ByteStep` gets. -/
def hostAnswer (s : State) : Option Byte := (askHostRead (takeStepKind s).2).1

@[simp] theorem afterHostRead_ind (s : State) : (afterHostRead s).ind = s.ind := rfl
@[simp] theorem afterHostRead_len (s : State) : (afterHostRead s).len = s.len := rfl
@[simp] theorem afterHostRead_buf (s : State) : (afterHostRead s).buf = s.buf := rfl
@[simp] theorem afterHostRead_loop (s : State) : (afterHostRead s).loop = s.loop := rfl
@[simp] theorem afterHostRead_trace (s : State) : (afterHostRead s).trace = s.trace ++ [.hostRead (hostAnswer s)] := rfl

/-- The state after one step, by its class: everything a step can do (R53, R59, R62 to R65, R84, R88, I7). -/
inductive StepResult (s : State) : State → Prop where
  | held (h : s.loop = .sendPending) : StepResult s s
  | polledNothing (h : s.loop = .polling) (k : (takeStepKind s).1 = .rfPoll)
      (a : (askRfIsAvailable (takeStepKind s).2).1 = false) : StepResult s (askRfIsAvailable (takeStepKind s).2).2
  | reported (h : s.loop = .polling) (k : (takeStepKind s).1 = .rfPoll)
      (a : (askRfIsAvailable (takeStepKind s).2).1 = true) :
      StepResult s ((writeReport (askRfGetValue (askRfIsAvailable (takeStepKind s).2).2).1
        (askRfGetValue (askRfIsAvailable (takeStepKind s).2).2).2).emit .rfResetAvailable)
  | noByte (h : s.loop = .polling) (k : (takeStepKind s).1 = .byteStep) (a : hostAnswer s = none) :
      StepResult s (afterHostRead s)
  | opened (h : s.loop = .polling) (k : (takeStepKind s).1 = .byteStep) (b : Byte) (a : hostAnswer s = some b)
      (i : s.ind = s.len) (t : isHeader b = true) : StepResult s (openFrame (lengthOf b) (afterHostRead s))
  | discarded (h : s.loop = .polling) (k : (takeStepKind s).1 = .byteStep) (b : Byte) (a : hostAnswer s = some b)
      (i : s.ind = s.len) (t : isHeader b = false) : StepResult s (dropInput (.hdrOutOfRange b) (afterHostRead s))
  | stored (h : s.loop = .polling) (k : (takeStepKind s).1 = .byteStep) (b : Byte) (a : hostAnswer s = some b)
      (i : s.ind < s.len) (l : s.ind + 1 ≠ s.len) :
      StepResult s (((afterHostRead s).withBuf (Memory.store s.buf s.ind.toNat b)).withInd (s.ind + 1))
  | completed (h : s.loop = .polling) (k : (takeStepKind s).1 = .byteStep) (b : Byte) (a : hostAnswer s = some b)
      (i : s.ind < s.len) (l : s.ind + 1 = s.len) :
      StepResult s (complete
        (((afterHostRead s).withBuf (Memory.store s.buf s.ind.toNat b)).withInd (s.ind + 1)))

/-- A cursor below a 4-bit length names one of the fifteen slots (R26). -/
theorem cursor_lt_fifteen {ind len : Nibble} (h : ind < len) : ind.toNat < 15 := by
  have := len.isLt; have := BitVec.lt_def.mp h; omega

/-- A step does one of these, or it is a byte step refused in a state that R9 does not admit. -/
theorem step_result (s : State) :
    (step s = .refused .readerStateNotAdmitted ∧ s.loop = .polling ∧ s.len < s.ind) ∨
      ∃ t, step s = .next t ∧ StepResult s t := by
  cases hl : s.loop with
  | sendPending => exact .inr ⟨s, by simp [step, hl], .held hl⟩
  | polling =>
    cases hk : (takeStepKind s).1 with
    | rfPoll =>
      have e : step s = execRfPoll (takeStepKind s).2 := by simp [step, hl, fetch, hk]; rfl
      rcases execRfPoll_cases (takeStepKind s).2 with ⟨a, x⟩ | ⟨a, x⟩
      · exact .inr ⟨_, e.trans x, .polledNothing hl hk a⟩
      · exact .inr ⟨_, e.trans x, .reported hl hk a⟩
    | byteStep =>
      have e : step s = match decodeInput s.ind s.len (hostAnswer s) with
          | .ok i => exec i (afterHostRead s)
          | .error _ => .refused .readerStateNotAdmitted := by
        simp only [step, hl, fetch, hk, fetchByte, takeStepKind_ind, takeStepKind_len, hostAnswer]
        cases decodeInput s.ind s.len (askHostRead (takeStepKind s).2).1 <;> rfl
      cases ha : hostAnswer s with
      | none => exact .inr ⟨_, by rw [e, ha]; rfl, .noByte hl hk ha⟩
      | some b =>
        cases hd : decodeInput s.ind s.len (some b) with
        | error r =>
          left
          refine ⟨by rw [e, ha, hd], rfl, ?_⟩
          simp only [decodeInput] at hd
          split at hd
          · cases hd
          · split at hd
            · cases hd
            · rename_i h1 h2
              rw [BitVec.lt_def] at h1 ⊢
              have : s.ind.toNat ≠ s.len.toNat := fun x => h2 (BitVec.eq_of_toNat_eq x)
              omega
        | ok i =>
          right
          rw [e, ha, hd]
          rcases decodeInput_some hd with ⟨hi, rfl⟩ | ⟨hi, rfl⟩
          · have x := execPayload_eq (s := afterHostRead s) (b := b) (cursor_lt_fifteen hi)
            by_cases l : s.ind + 1 = s.len
            · exact ⟨_, x.trans (congrArg _ (if_pos l)), .completed hl hk b ha hi l⟩
            · exact ⟨_, x.trans (congrArg _ (if_neg l)), .stored hl hk b ha hi l⟩
          · rcases exec_decodeIdleByte b (afterHostRead s) with ⟨t, x⟩ | ⟨t, x⟩
            · exact ⟨_, x, .opened hl hk b ha hi t⟩
            · exact ⟨_, x, .discarded hl hk b ha hi t⟩

/-- Everything a step that answers a next state can have done. -/
theorem step_cases {s t : State} (h : step s = .next t) : StepResult s t := by
  rcases step_result s with ⟨r, -⟩ | ⟨u, e, c⟩
  · rw [r] at h; cases h
  · rw [e] at h; cases h; exact c

/-- A placed report word is an RF poll that finds the word's value (log 11). -/
theorem withFetchWord_report (s : State) (w : Nat) :
    s.withFetchWord 48 w = expectReport (assembleValue (BitVec.ofNat 8 (w / 2 ^ 8)) (BitVec.ofNat 8 (w / 2 ^ 16))
      (BitVec.ofNat 8 (w / 2 ^ 24)) (BitVec.ofNat 8 (w / 2 ^ 32))) s := by
  simp only [State.withFetchWord, placeTableWord, assembleValue]

/-- The step after an expected report: it completes, leaves the reader and the loop, and adds RF_POLL's events (R84). -/
theorem step_expectReport (v : Word) (s : State) : ∃ t, step (expectReport v s) = .next t ∧ t.ind = s.ind ∧
    t.len = s.len ∧ t.buf = s.buf ∧ t.loop = .polling ∧
    t.trace = s.trace ++ [.rfIsAvailable true, .rfGetValue v, .hostWrite (reportBytes v), .rfResetAvailable] := by
  refine ⟨(writeReport v (askRfGetValue (askRfIsAvailable (takeStepKind (expectReport v s)).2).2).2).emit
    .rfResetAvailable, rfl, ?_⟩
  simp [writeReport, askRfGetValue, askRfIsAvailable, takeStepKind, expectReport, Source.push, Source.take, State.emit,
    State.withEnv, State.withLoop]

end Sys2Proof.Machine
end

