-- ==== Sys2Proof/Laws/Run.lean ====
section
/-!
SUPPORT. Runs one step at a time, the invariant under equal registers, and the frame bytes after a store.
-/

namespace Sys2Proof.Machine

@[simp] theorem run_zero (s : State) : Sys2Proof.core.run 0 s = .next s := rfl

/-- A run whose first step answers a next state goes on from it. -/
theorem run_succ {k : Nat} {s t : State} (h : step s = .next t) :
    Sys2Proof.core.run (k + 1) s = Sys2Proof.core.run k t := by
  simp only [Host.Core.run, show Sys2Proof.core.step s = .next t from h]

/-- A run is a run of its first part, then of the rest. -/
theorem run_add {j k : Nat} {s t : State} (h : Sys2Proof.core.run j s = .next t) :
    Sys2Proof.core.run (j + k) s = Sys2Proof.core.run k t := by
  induction j generalizing s with
  | zero => cases h; rw [Nat.zero_add]
  | succ j ih =>
    rcases step_result s with ⟨e, -⟩ | ⟨u, e, -⟩
    · simp only [Host.Core.run, show Sys2Proof.core.step s = .refused _ from e] at h; cases h
    · rw [run_succ e] at h
      rw [Nat.add_right_comm, run_succ e]; exact ih h

/-- The next steps are byte steps that get these answers. -/
def Fed (s : State) (answers : List (Option Byte)) : Prop :=
  s.env.schedule.listed = answers.map (fun _ => StepKind.byteStep) ∧ s.env.host.listed = answers

/-- `withByteAnswers` feeds what it is given. -/
theorem fed_withByteAnswers (s : State) (answers : List (Option Byte)) : Fed (s.withByteAnswers answers) answers := ⟨rfl, rfl⟩

/-- A fed state takes its first answer, and stays fed with the rest. -/
theorem Fed.next {s : State} {a : Option Byte} {as : List (Option Byte)} (h : Fed s (a :: as)) :
    NextByteIs s a ∧ hostAnswer s = a ∧ Fed (afterHostRead s) as := by
  obtain ⟨h1, h2⟩ := h
  have e1 : s.env.schedule.take Config.freeStepKind =
      (.byteStep, { s.env.schedule with listed := as.map fun _ => StepKind.byteStep }) := by
    simp only [Source.take, h1, List.map_cons]
  have e2 : s.env.host.take Config.freeHostRead = (a, { s.env.host with listed := as }) := by
    simp only [Source.take, h2]
  refine ⟨⟨?_, ?_⟩, ?_, ?_, ?_⟩
  · simp only [takeStepKind, e1]
  · simp only [takeStepKind, askHostRead, e1, withEnv_env, e2]
  · simp only [hostAnswer, takeStepKind, askHostRead, e1, withEnv_env, e2]
  · simp only [afterHostRead, takeStepKind, askHostRead, e1, withEnv_env, emit_env]
  · simp only [afterHostRead, takeStepKind, askHostRead, e1, withEnv_env, e2, emit_env]

/-- The invariant looks only at the registers, the buffer and the step in progress. -/
theorem ReaderInv.congr {s t : State} (h1 : t.ind = s.ind) (h2 : t.len = s.len) (h3 : t.buf = s.buf)
    (h4 : t.loop = s.loop) (h : ReaderInv s) : ReaderInv t := by
  simpa only [ReaderInv, ReaderClean, SendStanding, h1, h2, h3, h4] using h

/-- The cursor advances without wrapping while it is below the target length (R65). -/
theorem cursor_succ {ind len : Nibble} (h : ind < len) : (ind + 1).toNat = ind.toNat + 1 := by
  have := cursor_lt_fifteen h
  rw [BitVec.toNat_add]; simp; omega

/-- A length above a cursor is not 0. -/
theorem length_ne_zero {ind len : Nibble} (h : ind < len) : len ≠ 0 := by
  rintro rfl; rw [BitVec.lt_def] at h; simp at h

/-- Storing at the cursor appends the byte to the frame received. -/
theorem frameBytes_store {s t : State} {b : Byte} (hw : Memory.wf s.buf = true) (h : s.ind < s.len)
    (ht : t.buf = Memory.store s.buf s.ind.toNat b) : frameBytes t (s.ind + 1) = frameBytes s s.ind ++ [b] := by
  simp only [frameBytes, cursor_succ h, List.range_succ, List.map_append, ht, List.map_cons, List.map_nil,
    Memory.byteAt_store_same hw]
  congr 1
  exact List.map_congr_left fun j hj => Memory.byteAt_store_other (by have := List.mem_range.mp hj; omega)

end Sys2Proof.Machine
end

