-- ==== Sys2Proof/Tests/Slice0.lean ====
section
/-!
SUPPORT. Tests: ill-formed terms, words written out from spec/30_encoding.md, one step of each instruction from the vectors of
spec/95_test_vectors.md, and for every statement with hypotheses a state and operands that meet them.
-/

namespace Sys2Proof.Tests

open Sys2Proof.Machine

/-! ### WellFormed: one ill-formed term for each check -/

theorem test_header_of_length_zero_refused : (Instr.header 0).wellFormed = false := by decide
theorem test_badLen_of_length_seven_refused : (Instr.transmitBadLen [0, 0, 0, 0, 0, 0]).wellFormed = false := by decide
theorem test_badLen_too_short_refused : (Instr.transmitBadLen [0]).wellFormed = false := by decide
theorem test_badLen_too_long_refused : (Instr.transmitBadLen (List.replicate 15 0)).wellFormed = false := by decide
theorem test_setRx_too_short_refused : (Instr.setRx 1 []).wellFormed = false := by decide
theorem test_setRx_too_long_refused : (Instr.setRx 1 (List.replicate 14 0)).wellFormed = false := by decide
theorem test_ignored_opcode_one_refused : (Instr.ignored 1 [0, 0]).wellFormed = false := by decide
theorem test_ignored_opcode_two_refused : (Instr.ignored 2 [0, 0]).wellFormed = false := by decide
theorem test_ignored_too_short_refused : (Instr.ignored 3 [0]).wellFormed = false := by decide
theorem test_ignored_too_long_refused : (Instr.ignored 3 (List.replicate 15 0)).wellFormed = false := by decide
theorem test_short_of_three_refused : (Instr.short 2 [0, 0]).wellFormed = false := by decide

/-! ### Decode: words written out bit by bit from R43, R46, R47, R52 to R55 -/

/-- R43: `0100 0111` announces seven frame bytes. -/
theorem test_decode_header : decodeIdleByte 0b01000111#8 = .header 7 := by decide
/-- R57: `0100 0000` announces none. -/
theorem test_decode_emptyFrame : decodeIdleByte 0b01000000#8 = .emptyFrame := by decide
/-- V-R3, byte 3F. -/
theorem test_decode_discardLow : decodeIdleByte 0b00111111#8 = .discardLow 0b111111 := by decide
/-- V-R3, byte 50. -/
theorem test_decode_discardFifties : decodeIdleByte 0b01010000#8 = .discardFifties 0 := by decide
/-- V-R3, byte 7E. -/
theorem test_decode_discardSixties : decodeIdleByte 0b01111110#8 = .discardSixties 0b11110 := by decide
/-- V-R3, byte 80. -/
theorem test_decode_discardHigh : decodeIdleByte 0b10000000#8 = .discardHigh 0 := by decide
/-- V-R4: 45 in a frame is data. -/
theorem test_decode_payload : decodeInput 1 3 (some 0x45) = .ok (.payload 0x45) := rfl
/-- R62. -/
theorem test_decode_noByte : decodeInput 2 7 none = .ok .noByte := rfl
/-- V-T3. -/
theorem test_decode_transmit :
    decodeWire [0x47, 0x01, 0x12, 0x34, 0x56, 0x78, 0x00, 0x18] = .ok (.transmit 0x12345678 24, []) := rfl
/-- V-T4. -/
theorem test_decode_transmitBadLen :
    decodeWire [0x46, 0x01, 0x00, 0x00, 0x01, 0x00, 0x00] = .ok (.transmitBadLen [0, 0, 1, 0, 0], []) := rfl
/-- V-S6: length 7 with opcode 2. -/
theorem test_decode_setRx :
    decodeWire [0x47, 0x02, 0x01, 0x00, 0x00, 0x00, 0x00, 0x00] = .ok (.setRx 1 [0, 0, 0, 0, 0], []) := rfl
/-- V-D7: 47 is an opcode here. -/
theorem test_decode_ignored : decodeWire [0x43, 0x47, 0x01, 0x00] = .ok (.ignored 0x47 [1, 0], []) := rfl
/-- V-D3. -/
theorem test_decode_short : decodeWire [0x42, 0x02, 0x00] = .ok (.short 2 [0], []) := rfl
/-- R52, L1-7. -/
theorem test_decode_report :
    decodeReport [Config.reportTag, 0x04, 0x03, 0x02, 0x01, 0x0A] = .ok (.rfReport 0x01020304, []) := by
  simp [decodeReport, Config.reportTerm]; rfl
/-- The opcode table's words, as it numbers them. -/
theorem test_decode_table_words :
    decodeTableWord 16 0x4701 = some (.transmit 0 0) ∧ decodeTableWord 16 0x4302 = some (.setRx 0 [0]) ∧
    decodeTableWord 8 0x4F = some (.header 15) ∧ decodeTableWord 0 0 = some .noByte := ⟨rfl, rfl, rfl, rfl⟩

/-! ### One step of each instruction -/

/-- A polling state with a listed environment. -/
def state (ind len : Nibble) (buf : Memory) (kinds : List StepKind) (answers : List (Option Byte)) : State where
  ind := ind
  len := len
  buf := buf
  trace := []
  loop := .polling
  env := { Environment.fresh with schedule := ⟨kinds, 0⟩, host := ⟨answers, 0⟩, sendReturns := ⟨[true], 0⟩ }

/-- The next state, where there is one. -/
def nextOf (o : Host.Outcome State Fault Refusal) : Option State :=
  match o with
  | .next t => some t
  | .fault _ => none
  | .refused _ => none

/-- The registers and the trace of the next state. -/
def seen (o : Host.Outcome State Fault Refusal) : Option (Nibble × Nibble × List Event) :=
  (nextOf o).map fun t => (t.ind, t.len, t.trace)

/-- V-R1, header 4F. -/
theorem test_step_header :
    seen (step (state 0 0 [] [.byteStep] [some 0x4F])) = some (0, 15, [.hostRead (some 0x4F)]) := by decide
/-- V-R2. -/
theorem test_step_emptyFrame :
    seen (step (state 0 0 [] [.byteStep] [some 0x40])) = some (0, 0, [.hostRead (some 0x40)]) := by decide
/-- V-R3. -/
theorem test_step_discardLow : seen (step (state 0 0 [] [.byteStep] [some 0x3F])) =
    some (0, 0, [.hostRead (some 0x3F), .drop (.hdrOutOfRange 0x3F)]) := by decide
theorem test_step_discardFifties : seen (step (state 0 0 [] [.byteStep] [some 0x50])) =
    some (0, 0, [.hostRead (some 0x50), .drop (.hdrOutOfRange 0x50)]) := by decide
theorem test_step_discardSixties : seen (step (state 0 0 [] [.byteStep] [some 0x7E])) =
    some (0, 0, [.hostRead (some 0x7E), .drop (.hdrOutOfRange 0x7E)]) := by decide
theorem test_step_discardHigh : seen (step (state 0 0 [] [.byteStep] [some 0xFF])) =
    some (0, 0, [.hostRead (some 0xFF), .drop (.hdrOutOfRange 0xFF)]) := by decide
/-- V-R4. -/
theorem test_step_payload :
    (nextOf (step (state 1 3 [(0, 2)] [.byteStep] [some 0x45]))).map (fun t => (t.ind, t.buf)) =
      some (2, [(0, 2), (1, 0x45)]) := by decide
/-- V-R9, L1-4. -/
theorem test_step_payload_completes_transmit :
    seen (step (state 6 7 [(0, 1), (3, 1)] [.byteStep] [some 0x10])) =
      some (0, 0, [.hostRead (some 0x10), .dispatch 7 [1, 0, 0, 1, 0, 0, 0x10], .rfSend 256 16, .rfResetAvailable]) := by
  decide
/-- V-R7. -/
theorem test_step_noByte :
    seen (step (state 2 7 [] [.byteStep] [none])) = some (2, 7, [.hostRead none]) := by decide
/-- V-T8: no sign extension. -/
theorem test_exec_transmit : seen (exec (.transmit 0x80000000 0x8000) (state 0 0 [] [] [])) =
    some (0, 0, [.rfSend 0x80000000 0x8000, .rfResetAvailable]) := by decide
/-- V-T6, its last byte. -/
theorem test_step_transmitBadLen : seen (step (state 2 3 [(0, 1)] [.byteStep] [some 0])) =
    some (0, 0, [.hostRead (some 0), .dispatch 3 [1, 0, 0], .drop (.transmitBadLength 3)]) := by decide
/-- V-S4, its last byte. -/
theorem test_step_setRx_on : seen (step (state 2 3 [(0, 2), (1, 0x80)] [.byteStep] [some 0])) =
    some (0, 0, [.hostRead (some 0), .dispatch 3 [2, 0x80, 0], .rfEnable]) := by decide
/-- V-S1, its last byte. -/
theorem test_step_setRx_off : seen (step (state 2 3 [(0, 2)] [.byteStep] [some 0])) =
    some (0, 0, [.hostRead (some 0), .dispatch 3 [2, 0, 0], .rfDisable]) := by decide
/-- V-D5, its last byte. -/
theorem test_step_ignored : seen (step (state 2 3 [(0, 3), (1, 1)] [.byteStep] [some 0])) =
    some (0, 0, [.hostRead (some 0), .dispatch 3 [3, 1, 0], .drop (.unknownOpcode 3)]) := by decide
/-- V-D3, its last byte: no `RfDisable`. -/
theorem test_step_short : seen (step (state 1 2 [(0, 2)] [.byteStep] [some 0])) =
    some (0, 0, [.hostRead (some 0), .dispatch 2 [2, 0], .drop (.shortFrame 2)]) := by decide

/-- A state whose next step is an RF poll that finds `v`, or nothing. -/
def pollState (found : Bool) (v : Word) : State :=
  { state 3 7 [] [.rfPoll] [] with
    env := { Environment.fresh with schedule := ⟨[.rfPoll], 0⟩, available := ⟨[found], 0⟩, value := ⟨[v], 0⟩ } }

/-- V-O6. -/
theorem test_step_rfPoll_reports : seen (step (pollState true 0x01020304)) =
    some (3, 7, [.rfIsAvailable true, .rfGetValue 0x01020304,
      .hostWrite [Config.reportTag, 0x04, 0x03, 0x02, 0x01, 0x0A], .rfResetAvailable]) := rfl
/-- V-O1. -/
theorem test_step_rfPoll_nothing : seen (step (pollState false 0)) = some (3, 7, [.rfIsAvailable false]) := rfl
/-- V-O5. -/
theorem test_exec_rfReport : seen (exec (.rfReport 0x4A) (state 0 0 [] [] [])) =
    some (0, 0, [.hostWrite [Config.reportTag, 0x4A, 0x00, 0x00, 0x00, 0x0A]]) := rfl
/-- A placed word runs as the first instruction after reset. -/
theorem test_placed_transmit : seen (step (State.reset.withFetchWord 16 0x4701)) =
    some (0, 0, [.hostRead (some 0), .dispatch 7 [1, 0, 0, 0, 0, 0, 0], .rfSend 0 0, .rfResetAvailable]) := by decide
/-- Codes of R94. -/
theorem test_drop_codes : [DropReason.hdrOutOfRange 0, .shortFrame 0, .transmitBadLength 0, .unknownOpcode 0].map
    DropReason.code = [1, 2, 3, 4] := by decide
/-- R58 and P2's encoding of RXOFF. -/
theorem test_assemble_rxOff : assemble .rxOff = some [0x43, 0x02, 0x00, 0x00] := rfl

/-! ### The canonical form of the buffer -/

theorem test_reset_memory_canonical : Memory.wf State.reset.buf = true := by decide
theorem test_store_of_cleared_value_unlists : Memory.store [(0, 2), (3, 5)] 3 0 = [(0, 2)] := by decide
theorem test_unsorted_memory_refused : Memory.wf [(3, 5), (0, 2)] = false := by decide
theorem test_slot_fifteen_refused : Memory.wf [(15, 1)] = false := by decide

/-! ### Witnesses: states and operands that meet the statements' hypotheses -/

/-- IDLE, a header next. -/
def idle : State := state 0 0 [] [.byteStep] [some 0x43]
/-- One of three frame bytes received, a header-range byte next. -/
def inFrame : State := state 1 3 [(0, 2)] [.byteStep] [some 0x45]
/-- Two of three frame bytes received, the last byte next. -/
def atLast : State := state 2 3 [(0, 2), (1, 1)] [.byteStep] [some 0x4F]
/-- The whole of a fifteen-byte frame but its last byte. -/
def atCapacity : State := state 14 15 [] [.byteStep] [some 0x01]
/-- An `RfSend` that does not return comes next. -/
def deaf : State := { idle with env := { idle.env with sendReturns := ⟨[false], 0⟩ } }
/-- Inside it. -/
def held : State := { state 7 7 [(0, 1)] [] [] with loop := .sendPending, trace := [.rfSend 0 0] }

theorem test_idle_inv : ReaderInv idle :=
  ⟨rfl, fun _ => ⟨by decide, fun _ _ => rfl, fun _ => rfl⟩, fun h => nomatch h⟩
theorem test_inFrame_inv : ReaderInv inFrame := by
  refine ⟨rfl, fun _ => ⟨by decide, fun j hj => ?_, fun h => nomatch h⟩, fun h => nomatch h⟩
  have : 1 ≤ j := hj
  simp [inFrame, state, Memory.byteAt, show ¬ 0 = j by omega]
theorem test_atLast_inv : ReaderInv atLast := by
  refine ⟨rfl, fun _ => ⟨by decide, fun j hj => ?_, fun h => nomatch h⟩, fun h => nomatch h⟩
  have : 2 ≤ j := hj
  simp [atLast, state, Memory.byteAt, show ¬ 0 = j by omega, show ¬ 1 = j by omega]
theorem test_atCapacity_inv : ReaderInv atCapacity :=
  ⟨rfl, fun _ => ⟨by decide, fun _ _ => rfl, fun h => nomatch h⟩, fun h => nomatch h⟩
theorem test_held_inv : ReaderInv held := by
  refine ⟨rfl, ?_, fun _ => ⟨rfl, rfl, rfl⟩⟩
  intro h
  cases h

theorem test_witness_DecodeOfEncode : (Instr.transmitBadLen (List.replicate 14 0)).wellFormed = true ∧
    (Instr.setRx 1 [0]).wellFormed = true ∧ (Instr.header 15).wellFormed = true := by decide
theorem test_witness_EncodeOfDecode : decode .frame [0x41, 0x05, 0x99] = .ok (.short 5 [], [0x99]) := rfl
theorem test_witness_ByteClasses_accumulating : (14 : Nibble) < 15 := by decide
theorem test_witness_ByteClasses_header : tagOf 0x40 = 0b0100#4 ∧ tagOf 0x4F = 0b0100#4 := by decide
theorem test_witness_ByteClasses_discard : tagOf 0x3F ≠ 0b0100#4 ∧ tagOf 0x50 ≠ 0b0100#4 := by decide
theorem test_witness_IdleByteRanges : (0x3F : Byte).toNat < 64 ∧ 80 ≤ (0x50 : Byte).toNat ∧ (0x5F : Byte).toNat < 96 ∧
    96 ≤ (0x60 : Byte).toNat ∧ (0x7F : Byte).toNat < 128 ∧ 128 ≤ (0x80 : Byte).toNat := by decide
theorem test_witness_FrameClasses_short : ([0x01] : List Byte).length + 1 ≤ 2 := by decide
theorem test_witness_FrameClasses_transmit : (List.replicate 6 (0 : Byte)).length + 1 = 7 := by decide
theorem test_witness_FrameClasses_badLen :
    3 ≤ (List.replicate 14 (0 : Byte)).length + 1 ∧ (List.replicate 14 (0 : Byte)).length + 1 ≤ 15 ∧
      (List.replicate 14 (0 : Byte)).length + 1 ≠ 7 := by decide
theorem test_witness_FrameClasses_ignored : (0x00 : Byte) ≠ 0x01#8 ∧ (0x00 : Byte) ≠ 0x02#8 := by decide
theorem test_witness_AssembledForms : decodeFrame [0x05, 0x01, 0x00] = .ok (.ignored 5 [1, 0]) := rfl
theorem test_witness_StepRuns_byte : idle.loop = .polling ∧ NextByteIs idle (some 0x43) ∧
    decodeInput idle.ind idle.len (some 0x43) = .ok (.header 3) := ⟨rfl, ⟨rfl, rfl⟩, rfl⟩
theorem test_witness_StepRuns_poll : (pollState true 1).loop = .polling ∧ (takeStepKind (pollState true 1)).1 = .rfPoll :=
  ⟨rfl, rfl⟩
theorem test_witness_AnswersAreTaken :
    idle.env.schedule.listed = [.byteStep] ∧ idle.env.host.listed = [some 0x43] := ⟨rfl, rfl⟩
theorem test_witness_Unadmitted : (state 3 1 [] [.byteStep] [some 0x43]).loop = .polling ∧
    (state 3 1 [] [.byteStep] [some 0x43]).len < (state 3 1 [] [.byteStep] [some 0x43]).ind ∧
    NextByteIs (state 3 1 [] [.byteStep] [some 0x43]) (some 0x43) := ⟨rfl, by decide, rfl, rfl⟩
theorem test_witness_StepsAreTotal : atCapacity.ind ≤ atCapacity.len ∧ idle.ind ≤ idle.len := by decide
theorem test_witness_StepKeepsInv : ∃ t, ReaderInv inFrame ∧ inFrame.loop = .polling ∧ step inFrame = .next t :=
  ⟨_, test_inFrame_inv, rfl, rfl⟩
theorem test_witness_RunsAppend :
    ∃ t, ReaderInv atCapacity ∧ Sys2Proof.core.run 1 atCapacity = .next t := ⟨_, test_atCapacity_inv, rfl⟩
theorem test_witness_UnreturnedSend : ¬ SendReturns deaf ∧ held.loop = .sendPending ∧ ReaderInv held :=
  ⟨nofun, rfl, test_held_inv⟩
theorem test_witness_NoByte : (state 2 7 [] [.byteStep] [none]).loop = .polling ∧
    NextByteIs (state 2 7 [] [.byteStep] [none]) none := ⟨rfl, rfl, rfl⟩
theorem test_witness_Header : idle.loop = .polling ∧ idle.ind = idle.len ∧ isHeader 0x43 = true ∧
    NextByteIs idle (some 0x43) := ⟨rfl, rfl, rfl, rfl, rfl⟩
theorem test_witness_Discard_low : (state 0 0 [] [.byteStep] [some 0x3F]).loop = .polling ∧
    NextByteIs (state 0 0 [] [.byteStep] [some 0x3F]) (some 0x3F) ∧ (0x3F : Byte).toNat < 64 :=
  ⟨rfl, ⟨rfl, rfl⟩, by decide⟩
theorem test_witness_Discard_high : (state 0 0 [] [.byteStep] [some 0x50]).loop = .polling ∧
    NextByteIs (state 0 0 [] [.byteStep] [some 0x50]) (some 0x50) ∧ 80 ≤ (0x50 : Byte).toNat :=
  ⟨rfl, ⟨rfl, rfl⟩, by decide⟩
theorem test_witness_Payload : Memory.wf inFrame.buf = true ∧ inFrame.ind < inFrame.len ∧
    Memory.wf atCapacity.buf = true ∧ atCapacity.ind < atCapacity.len := by decide
theorem test_witness_PayloadFaults : (state 15 15 [] [] []).ind = 15 := rfl
theorem test_witness_HeaderInside_stored : Memory.wf inFrame.buf = true ∧ inFrame.loop = .polling ∧
    inFrame.ind < inFrame.len ∧ isHeader 0x45 = true ∧ NextByteIs inFrame (some 0x45) ∧
    inFrame.ind + 1 < inFrame.len := ⟨rfl, rfl, by decide, rfl, ⟨rfl, rfl⟩, by decide⟩
theorem test_witness_HeaderInside_completing : Memory.wf atLast.buf = true ∧ atLast.loop = .polling ∧
    atLast.ind < atLast.len ∧ isHeader 0x4F = true ∧ NextByteIs atLast (some 0x4F) ∧ atLast.ind + 1 = atLast.len :=
  ⟨rfl, rfl, by decide, rfl, ⟨rfl, rfl⟩, rfl⟩
theorem test_witness_Completion : atLast.loop = .polling ∧ atLast.len ≠ 0 ∧ SendReturns atLast := ⟨rfl, by decide, rfl⟩
theorem test_witness_Transitions_accumulating : ReaderInv atLast ∧ atLast.loop = .polling ∧ SendReturns atLast ∧
    NextByteIs atLast (some 0x4F) := ⟨test_atLast_inv, rfl, rfl, rfl, rfl⟩
theorem test_witness_Transitions_idle : ReaderInv idle ∧ idle.loop = .polling ∧ SendReturns idle ∧
    NextByteIs idle (some 0x43) := ⟨test_idle_inv, rfl, rfl, rfl, rfl⟩
theorem test_witness_Dispatch_any : (1 : Nibble) ≠ 0 ∧ (15 : Nibble) ≠ 0 := by decide
theorem test_witness_Dispatch_transmit :
    bufRead (state 7 7 [(0, 1)] [] []) 0 = 0x01#8 ∧ 3 ≤ (7 : Nibble).toNat ∧ (7 : Nibble).toNat = 7 ∧
      SendReturns (state 7 7 [(0, 1)] [] []) ∧ 3 ≤ (15 : Nibble).toNat ∧ (15 : Nibble).toNat ≠ 7 :=
  ⟨rfl, by decide, rfl, rfl, by decide, by decide⟩
theorem test_witness_Dispatch_setRx : 3 ≤ (3 : Nibble).toNat ∧ bufRead atLast 0 = 0x02#8 := ⟨by decide, rfl⟩
theorem test_witness_Dispatch_ignored : 3 ≤ (3 : Nibble).toNat ∧ bufRead (state 3 3 [(0, 0xFF)] [] []) 0 ≠ 0x01#8 ∧
    bufRead (state 3 3 [(0, 0xFF)] [] []) 0 ≠ 0x02#8 := by decide
theorem test_witness_OnlyRfPollWrites : ∃ t, step (pollState true 1) = .next t ∧
    .hostWrite (reportBytes 1) ∈ newEvents (pollState true 1) t :=
  ⟨_, rfl, .tail _ (.tail _ (.head _))⟩
theorem test_witness_EverySend : ∃ t u, sendsAreCleared (decide (held.loop = .sendPending)) held.trace = true ∧
    step held = .next t ∧ sendsAreCleared (decide (atLast.loop = .sendPending)) atLast.trace = true ∧
    step atLast = .next u := ⟨_, _, rfl, rfl, rfl, rfl⟩
theorem test_witness_DispatchReadsOnly : (1 : Nibble) ≠ 0 ∧ atLast.env = (atLast.withBuf [(0, 2)]).env ∧
    ∀ j, j < (1 : Nibble).toNat → Memory.byteAt atLast.buf j = Memory.byteAt (atLast.withBuf [(0, 2)]).buf j :=
  ⟨by decide, rfl, by decide⟩
theorem test_witness_RfPoll : ((pollState true 1).env.available.take Config.freeAvailable).1 = true ∧
    ((pollState true 1).env.value.take Config.freeValue).1 = 1 ∧
    ((pollState false 1).env.available.take Config.freeAvailable).1 = false := ⟨rfl, rfl, rfl⟩
theorem test_witness_OnlyReaderRules : ∃ t u, exec (.setRx 1 [0]) idle = .next t ∧ exec (.header 3) idle = .next u :=
  ⟨_, _, rfl, rfl⟩
theorem test_witness_EveryInstruction : atCapacity.ind ≠ 15 := by decide
theorem test_witness_HeaderAndNoBytes : ReaderInv idle ∧ idle.loop = .polling ∧ idle.ind = idle.len ∧ SendReturns idle ∧
    isHeader 0x40 = true ∧ ([] : List Byte).length = (lengthOf 0x40).toNat := ⟨test_idle_inv, rfl, rfl, rfl, rfl, rfl⟩
theorem test_witness_HeaderAndBytes : ReaderInv idle ∧ idle.loop = .polling ∧ idle.ind = idle.len ∧ SendReturns idle ∧
    isHeader 0x4F = true ∧ (List.replicate 15 (0x4F : Byte)).length = (lengthOf 0x4F).toNat :=
  ⟨test_idle_inv, rfl, rfl, rfl, rfl, by decide⟩
theorem test_witness_ParkedFrame : ReaderInv inFrame ∧ inFrame.loop = .polling ∧ inFrame.ind < inFrame.len ∧
    SendReturns inFrame ∧ ([0x43, 0x02] : List Byte).length = inFrame.len.toNat - inFrame.ind.toNat :=
  ⟨test_inFrame_inv, rfl, by decide, rfl, by decide⟩
theorem test_witness_Fifteen : ReaderInv inFrame ∧ inFrame.loop = .polling ∧ SendReturns inFrame ∧
    (List.replicate 15 (0 : Byte)).length = 15 ∧ ∀ b ∈ List.replicate 15 (0 : Byte), isHeader b = false :=
  ⟨test_inFrame_inv, rfl, rfl, by decide, by decide⟩
theorem test_witness_Fifteen_idle : ReaderInv idle ∧ idle.loop = .polling ∧ idle.ind = idle.len ∧ SendReturns idle ∧
    (List.replicate 15 (0xFF : Byte)).length = 15 ∧ ∀ b ∈ List.replicate 15 (0xFF : Byte), isHeader b = false :=
  ⟨test_idle_inv, rfl, rfl, rfl, by decide, by decide⟩
theorem test_witness_ArrivalOrder : ReaderInv inFrame ∧ inFrame.loop = .polling := ⟨test_inFrame_inv, rfl⟩
theorem test_witness_NoTimeout : (state 1 3 [] [] [none, none]).ind ≤ (state 1 3 [] [] [none, none]).len ∧
    (state 1 3 [] [] [none, none]).env.host.listed = List.replicate 2 none ∧
    [StepKind.byteStep, .rfPoll, .byteStep].count .byteStep ≤ 2 := by decide
/-- One of three frame bytes received, two bytes waiting. -/
def waiting : State := { inFrame with env := { inFrame.env with host := ⟨[some 0x45, some 0x01], 0⟩ } }
theorem test_waiting_inv : ReaderInv waiting := ⟨test_inFrame_inv.1, test_inFrame_inv.2.1, test_inFrame_inv.2.2⟩
theorem test_witness_EnoughBytes : ReaderInv waiting ∧ waiting.loop = .polling ∧ SendReturns waiting ∧
    waiting.env.host.listed = ([0x45, 0x01] : List Byte).map some ∧
    [StepKind.byteStep, .rfPoll, .byteStep].count .byteStep ≤ ([0x45, 0x01] : List Byte).length ∧
    waiting.len.toNat - waiting.ind.toNat ≤ [StepKind.byteStep, .rfPoll, .byteStep].count .byteStep :=
  ⟨test_waiting_inv, rfl, rfl, rfl, by decide, by decide⟩
/-- An order of steps that takes the two kinds in turn. -/
def inTurn (n : Nat) : StepKind := if n % 2 = 0 then .byteStep else .rfPoll
theorem test_witness_FairSchedules : ReaderInv waiting ∧ waiting.loop = .polling ∧ SendReturns waiting ∧
    WeaklyFair inTurn ∧ waiting.env.host.listed = ([0x45, 0x01] : List Byte).map some ∧
    waiting.len.toNat - waiting.ind.toNat ≤ ([0x45, 0x01] : List Byte).length := by
  refine ⟨test_waiting_inv, rfl, rfl, fun n => ⟨⟨2 * n, by omega, ?_⟩, ⟨2 * n + 1, by omega, ?_⟩⟩, rfl, by decide⟩
  · simp [inTurn]
  · simp [inTurn, Nat.add_mod]
/-- A state whose two RF polls find a value and then nothing, and whose `RfSend` returns. -/
def echoState (answers : List Bool) : State :=
  { idle with env := { idle.env with available := ⟨answers, 0⟩, value := ⟨[1], 0⟩ } }
theorem test_witness_SelfEcho : ∃ t u, SendReturns (echoState [false]) ∧
    exec (.transmit 256 16) (echoState [false]) = .next t ∧ exec .rfPoll t = .next u ∧
    receiverContract true ([] ++ quietHistory (newEvents (echoState [false]) u)) := by
  refine ⟨_, _, rfl, rfl, rfl, ?_⟩
  simp [quietHistory, receiverContract, echoState, newEvents, askRfIsAvailable, Source.take, transmitAction,
    issueRfSend, idle, state, State.emit, State.withEnv]
theorem test_witness_NotRepeated : ∃ t u, ((echoState [true, false]).env.available.take Config.freeAvailable).1 = true ∧
    exec .rfPoll (echoState [true, false]) = .next t ∧ exec .rfPoll t = .next u ∧
    receiverContract true ([] ++ quietHistory (newEvents (echoState [true, false]) u)) := by
  refine ⟨_, _, rfl, rfl, rfl, ?_⟩
  simp [quietHistory, receiverContract, echoState, newEvents, askRfIsAvailable, askRfGetValue, writeReport,
    Source.take, idle, state, State.emit, State.withEnv]
theorem test_witness_Placed : decodeTableWord 16 0x4702 = some (.setRx 0 [0, 0, 0, 0, 0]) := rfl
theorem test_byte_of_number {n k : Nat} (h : n % 256 = k % 256) : BitVec.ofNat 8 n = BitVec.ofNat 8 k :=
  BitVec.eq_of_toNat_eq (by simpa only [BitVec.toNat_ofNat] using h)
theorem test_report_arithmetic (t n : Nat) (h : n = t * 1099511627776 + 17230332170) :
    n / 1099511627776 % 256 = t % 256 ∧ n / 4294967296 % 256 = 4 ∧ n / 16777216 % 256 = 3 ∧ n / 65536 % 256 = 2 ∧
      n / 256 % 256 = 1 ∧ n % 256 = 10 := by omega
theorem test_row_of_report_bytes (tag : Byte) (n : Nat) (h : n = tag.toNat * 1099511627776 + 17230332170) :
    rowReport n = [tag, BitVec.ofNat 8 4, BitVec.ofNat 8 3, BitVec.ofNat 8 2, BitVec.ofNat 8 1, BitVec.ofNat 8 10] := by
  obtain ⟨h5, h4, h3, h2, h1, h0⟩ := test_report_arithmetic _ _ h
  have ht : BitVec.ofNat 8 (n / 1099511627776) = tag := (test_byte_of_number h5).trans (by simp)
  rw [rowReport, show 2 ^ 40 = 1099511627776 from rfl, show 2 ^ 32 = 4294967296 from rfl,
    show 2 ^ 24 = 16777216 from rfl, show 2 ^ 16 = 65536 from rfl, show 2 ^ 8 = 256 from rfl, ht,
    test_byte_of_number (k := 4) h4, test_byte_of_number (k := 3) h3, test_byte_of_number (k := 2) h2,
    test_byte_of_number (k := 1) h1, test_byte_of_number (k := 10) h0]
theorem test_witness_Placed_report : ∃ w, decodeTableWord 48 w = some (.rfReport 0x01020304) := by
  obtain ⟨n, h⟩ : ∃ n, n = Config.reportTag.toNat * 1099511627776 + 17230332170 := ⟨_, rfl⟩
  have bytes := test_row_of_report_bytes Config.reportTag n h
  have word : decodeTableWord 48 n = decoded (decode .report (rowReport n)) := rfl
  rw [bytes] at word
  exact ⟨n, word.trans (congrArg decoded test_decode_report)⟩

end Sys2Proof.Tests
end

section
/-!
PROOFS. The reader's state (spec/10_state.md R8, R9, R12, R13, R22): what reset gives, that every step keeps the invariant,
which instructions write the registers and the buffer, and the byte that R9 does not admit.
-/

namespace Sys2Proof.Machine

/-! ### The invariant -/

/-- Between steps the invariant is the canonical buffer and a clean reader. -/
theorem ReaderInv.of_polling {s : State} (hl : s.loop = .polling) (hw : Memory.wf s.buf = true) (hc : ReaderClean s) :
    ReaderInv s :=
  ⟨hw, fun _ => hc, by simp [hl]⟩

/-- Inside an unreturned `RfSend` the invariant is the canonical buffer and the standing frame. -/
theorem ReaderInv.of_sendPending {s : State} (hl : s.loop = .sendPending) (hw : Memory.wf s.buf = true)
    (hf : SendStanding s) : ReaderInv s :=
  ⟨hw, by simp [hl], fun _ => hf⟩

/-- A cleared reader is clean (R66). -/
theorem readerClean_clearReader (s : State) : ReaderClean (clearReader s) :=
  ⟨BitVec.le_refl 0, fun _ _ => rfl, fun _ => rfl⟩

/-- A header read while IDLE keeps the invariant: IDLE has every slot cleared, so the new frame starts clean (R63). -/
theorem ReaderInv.openFrame {s : State} (h : ReaderInv s) (hl : s.loop = .polling) (hi : s.ind = s.len) (n : Nibble) :
    ReaderInv (openFrame n s) := by
  obtain ⟨hw, hclean, -⟩ := h
  obtain ⟨-, hslots, hidle⟩ := hclean hl
  have hind : s.ind = 0 := hi.trans (hidle hi)
  refine .of_polling hl hw ⟨BitVec.le_def.mpr (Nat.zero_le _), fun j _ => hslots j ?_, Eq.symm⟩
  rw [hind]; exact Nat.zero_le j

/-- A byte stored at the cursor that does not complete the frame keeps the invariant (R65). -/
theorem ReaderInv.store {s : State} (h : ReaderInv s) (hl : s.loop = .polling) (hi : s.ind < s.len)
    (hn : s.ind + 1 ≠ s.len) (b : Byte) :
    ReaderInv ((s.withBuf (Memory.store s.buf s.ind.toNat b)).withInd (s.ind + 1)) := by
  obtain ⟨hw, hclean, -⟩ := h
  obtain ⟨-, hslots, -⟩ := hclean hl
  have hsucc := cursor_succ hi
  refine .of_polling hl (Memory.wf_store (cursor_lt_fifteen hi) hw) ⟨?_, fun j hj => ?_, fun he => absurd he hn⟩
  · have hlt := BitVec.lt_def.mp hi
    rw [BitVec.le_def, withInd_ind, hsucc]
    exact hlt
  · rw [withInd_ind, hsucc] at hj
    exact (Memory.byteAt_store_other (by omega)).trans (hslots j (by omega))

/-- A completion meets the invariant: it clears the reader, or its dispatch leaves a TRANSMIT frame standing (R66, I7). -/
theorem ReaderInv.complete {s : State} (hw : Memory.wf s.buf = true) (hl : s.loop = .polling) (hi : s.ind = s.len) :
    ReaderInv (complete s) := by
  rcases complete_cases s with ⟨hd, e⟩ | ⟨hd, e⟩ <;> rw [e]
  · exact .of_polling hd rfl (readerClean_clearReader _)
  · obtain ⟨eind, elen, ebuf⟩ := dispatch_reader s.len (s.emit (.dispatch s.len (frameBytes s s.len)))
    obtain ⟨hseven, hopcode⟩ := dispatch_loop (s := s.emit _) hl hd
    refine .of_sendPending hd (ebuf ▸ hw) ⟨?_, ?_, ?_⟩
    · rw [eind, elen]; exact hi
    · rw [elen]; exact hseven
    · rw [ebuf]; exact hopcode

/-- Everything a step can do keeps the invariant. -/
theorem StepResult.readerInv {s t : State} (h : ReaderInv s) (r : StepResult s t) : ReaderInv t := by
  have hread : ReaderInv (afterHostRead s) := h.congr rfl rfl rfl rfl
  cases r with
  | held => exact h
  | polledNothing => exact h.congr rfl rfl rfl rfl
  | reported => exact h.congr (by simp) (by simp) (by simp) (by simp)
  | noByte => exact hread
  | opened hl _ b _ hi => exact hread.openFrame hl hi (lengthOf b)
  | discarded => exact h.congr rfl rfl rfl rfl
  | stored hl _ b _ hi hn => exact hread.store hl hi hn b
  | completed hl _ b _ hi hlast => exact .complete (Memory.wf_store (cursor_lt_fifteen hi) h.1) hl hlast

/-- Settles O15: a case analysis over everything a step can do. -/
theorem stepKeepsTheReaderInvariant : Obligations.StepKeepsTheReaderInvariant :=
  fun _ _ hinv hstep => (step_cases hstep).readerInv hinv

/-- Settles O14: the reset values are those of a cleared reader. -/
theorem resetMeetsTheReaderInvariant : Obligations.ResetMeetsTheReaderInvariant :=
  .of_polling rfl Memory.wf_nil (readerClean_clearReader State.reset)

/-- Settles O1: each value is the one `State.reset` writes out. -/
theorem resetIsIdleWithNothingReceived : Obligations.ResetIsIdleWithNothingReceived :=
  ⟨rfl, rfl, rfl, fun i => Memory.byteAt_nil i, rfl, rfl⟩

/-! ### Who writes the registers and the buffer -/

/-- Equal registers and equal buffers are the same reader. -/
theorem SameReader.of_fields {s t : State} (hind : t.ind = s.ind) (hlen : t.len = s.len) (hbuf : t.buf = s.buf) :
    SameReader s t :=
  ⟨hind, hlen, fun a => congrArg (Memory.byteAt · a) hbuf⟩

theorem sameReader_dropInput (r : DropReason) (s : State) : SameReader s (dropInput r s) := .of_fields rfl rfl rfl

theorem sameReader_receiverModeAction (on : Bool) (s : State) : SameReader s (receiverModeAction on s) := by
  rw [receiverModeAction_eq]; exact .of_fields rfl rfl rfl

theorem sameReader_transmitAction (value : Word) (bits : Half) (s : State) :
    SameReader s (transmitAction value bits s) := by
  obtain ⟨hind, hlen, hbuf⟩ := transmitAction_reader value bits s
  exact .of_fields hind hlen hbuf

/-- An RF poll leaves the reader alone, whether it reports or not (R87). -/
theorem sameReader_of_execRfPoll {s t : State} (h : execRfPoll s = .next t) : SameReader s t := by
  rcases execRfPoll_cases s with ⟨-, e⟩ | ⟨-, e⟩ <;> cases e.symm.trans h
  · exact .of_fields rfl rfl rfl
  · exact .of_fields (by simp) (by simp) (by simp)

/-- Every instruction but HEADER, EMPTY_FRAME and PAYLOAD leaves the reader alone (R8, R72, R87). -/
theorem exec_sameReader {i : Instr} {s t : State} (h : exec i s = .next t) (hheader : ∀ len, i ≠ .header len)
    (hempty : i ≠ .emptyFrame) (hpayload : ∀ b, i ≠ .payload b) : SameReader s t := by
  cases i with
  | header len => exact absurd rfl (hheader len)
  | emptyFrame => exact absurd rfl hempty
  | payload b => exact absurd rfl (hpayload b)
  | discardLow _ | discardFifties _ | discardSixties _ | discardHigh _ | transmitBadLen _ | ignored _ _ | short _ _ =>
    cases h; exact sameReader_dropInput _ s
  | noByte => cases h; exact .of_fields rfl rfl rfl
  | transmit value bits => cases h; exact sameReader_transmitAction value bits s
  | setRx flag _ => cases h; exact sameReader_receiverModeAction (flagOn flag) s
  | rfPoll => exact sameReader_of_execRfPoll h
  | rfReport v => cases h; exact .of_fields rfl rfl rfl

/-- HEADER and EMPTY_FRAME open a frame, and do nothing else (R63). -/
theorem exec_header_openFrame {i : Instr} {s t : State} (h : exec i s = .next t)
    (hi : (∃ len, i = .header len) ∨ i = .emptyFrame) : ∃ n, t = openFrame n s := by
  rcases hi with ⟨len, rfl⟩ | rfl
  · cases h; exact ⟨len, rfl⟩
  · cases h; exact ⟨0, rfl⟩

/-- Settles O40: by the instruction, from the frame of its action. -/
theorem onlyReaderRulesWriteTheReader : Obligations.OnlyReaderRulesWriteTheReader := by
  intro i s t h
  refine ⟨exec_sameReader h, fun hi => ?_⟩
  obtain ⟨n, rfl⟩ := exec_header_openFrame h hi
  exact ⟨openFrame_buf n s, openFrame_trace n s, openFrame_env n s, openFrame_loop n s⟩

/-! ### A byte in a state that R9 does not admit -/

/-- No row of R53 applies to a byte where the cursor is past the target length (D24). -/
theorem decodeInput_unadmitted {ind len : Nibble} (h : len < ind) (b : Byte) :
    decodeInput ind len (some b) = .error .readerStateNotAdmitted := by
  have hlt : ¬ ind < len := BitVec.lt_asymm h
  have hne : ind ≠ len := fun e => BitVec.lt_irrefl len (e ▸ h)
  simp only [decodeInput, if_neg hlt, if_neg hne]

/-- A byte step whose answer no row of R53 takes is refused. -/
theorem step_refused_of_decodeInput {s : State} {a : Option Byte} {r : DecodeReject} (hl : s.loop = .polling)
    (hn : NextByteIs s a) (hd : decodeInput s.ind s.len a = .error r) : step s = .refused .readerStateNotAdmitted := by
  obtain ⟨hkind, rfl⟩ := hn
  simp only [step, hl, fetch, hkind, fetchByte, takeStepKind_ind, takeStepKind_len, hd]

/-- Settles O12: the byte has no row, so its fetch is refused. -/
theorem byteInUnadmittedStateIsRefused : Obligations.ByteInUnadmittedStateIsRefused :=
  fun _ b hl hpast hn => step_refused_of_decodeInput hl hn (decodeInput_unadmitted hpast b)

end Sys2Proof.Machine
end

section
/-!
PROOFS. The trace (spec/20_memory.md R24 to R37): the answers in their order, the events of a dispatch and of a completion,
what a step and a run append, and that every instruction completes.
-/

namespace Sys2Proof.Machine

/-! ### Answers, the missing slot, the report -/

/-- What a source lists is taken from the front, once (R34). -/
theorem Source.take_of_listed {α : Type} {q : Source α} {a : α} {rest : List α} (free : Nat → α)
    (h : q.listed = a :: rest) : q.take free = (a, { q with listed := rest }) := by
  simp only [Source.take, h]

/-- A listed step kind is the next one, and leaves its list. -/
theorem takeStepKind_of_listed {s : State} {k : StepKind} {ks : List StepKind}
    (h : s.env.schedule.listed = k :: ks) :
    takeStepKind s = (k, s.withEnv { s.env with schedule := { s.env.schedule with listed := ks } }) := by
  simp only [takeStepKind, Source.take_of_listed _ h]

/-- A listed byte answer is what `HostRead` answers; it leaves its list and stands in the trace (R60). -/
theorem askHostRead_of_listed {s : State} {a : Option Byte} {as : List (Option Byte)}
    (h : s.env.host.listed = a :: as) :
    askHostRead s =
      (a, (s.withEnv { s.env with host := { s.env.host with listed := as } }).emit (.hostRead a)) := by
  simp only [askHostRead, Source.take_of_listed _ h]

/-- Settles O11: both lists are taken from the front. -/
theorem answersAreTakenInOrder : Obligations.AnswersAreTakenInOrder := by
  intro s k ks a as hkinds hanswers
  rw [takeStepKind_of_listed hkinds]
  have hread := askHostRead_of_listed
    (s := s.withEnv { s.env with schedule := { s.env.schedule with listed := ks } }) hanswers
  rw [hread]
  exact ⟨rfl, rfl, rfl⟩

/-- PAYLOAD's meaning stops where its slot does not exist (R24). -/
theorem execPayload_fault {s : State} (h : 15 ≤ s.ind.toNat) (b : Byte) :
    execPayload b s = .fault .slotOutOfRange := by
  simp only [execPayload, bufWrite_none h]

/-- Settles O25: slot 15 is past the fifteen slots. -/
theorem payloadAtSlotFifteenFaults : Obligations.PayloadAtSlotFifteenFaults :=
  fun _ b hind => execPayload_fault (by simp [hind]) b

/-- A value is the sum of its bytes by weight, byte 0 the least significant (R30). -/
theorem toNat_eq_valueBytes (v : Word) :
    v.toNat = (valueByte v 0).toNat + (valueByte v 1).toNat * 2 ^ 8 + (valueByte v 2).toNat * 2 ^ 16 +
      (valueByte v 3).toNat * 2 ^ 24 := by
  have := v.isLt
  simp only [valueByte_toNat]
  omega

/-- Settles O39: the four bytes are the value's, least significant first. -/
theorem reportIsLittleEndian : Obligations.ReportIsLittleEndian :=
  fun _ v => ⟨valueByte v 0, valueByte v 1, valueByte v 2, valueByte v 3, rfl, toNat_eq_valueBytes v⟩

/-! ### A frame's bytes and the instruction they stand for -/

/-- `F[1..n-1]` of the frame in the buffer (R45). -/
def frameArgs (s : State) (n : Nibble) : List Byte :=
  (List.range (n.toNat - 1)).map fun j => Memory.byteAt s.buf (j + 1)

@[simp] theorem frameArgs_length (s : State) (n : Nibble) : (frameArgs s n).length = n.toNat - 1 := by
  simp [frameArgs]

theorem toNat_pos_of_ne_zero {n : Nibble} (h : n ≠ 0) : 0 < n.toNat :=
  Nat.pos_of_ne_zero fun e => h (BitVec.eq_of_toNat_eq e)

/-- A frame is its opcode, then its arguments. -/
theorem frameBytes_eq_cons {n : Nibble} (h : n ≠ 0) (s : State) :
    frameBytes s n = bufRead s 0 :: frameArgs s n := by
  obtain ⟨m, hm⟩ := Nat.exists_eq_add_one.mpr (toNat_pos_of_ne_zero h)
  simp [frameBytes, frameArgs, hm, List.range_succ_eq_map, bufRead, Function.comp_def]

/-- From length 2 on, the first argument is slot 1. -/
theorem frameArgs_eq_cons {n : Nibble} (h : 2 ≤ n.toNat) (s : State) :
    ∃ padding, frameArgs s n = bufRead s 1 :: padding := by
  obtain ⟨m, hm⟩ : ∃ m, n.toNat - 1 = m + 1 := ⟨n.toNat - 2, by omega⟩
  refine ⟨(List.range m).map fun j => Memory.byteAt s.buf (j + 2), ?_⟩
  simp [frameArgs, hm, List.range_succ_eq_map, bufRead, Function.comp_def]

/-- The arguments of a frame give back its length. -/
theorem lengthWithArgs_frameArgs {n : Nibble} (h : n ≠ 0) (s : State) :
    lengthWithArgs (frameArgs s n).length = n := by
  have := toNat_pos_of_ne_zero h
  rw [lengthWithArgs, frameArgs_length, Nat.sub_add_cancel this, BitVec.ofNat_toNat, BitVec.setWidth_eq]

section
variable {op : Byte} {args : List Byte}

/-- Opcode 1 of R55 at a length where the opcode counts. -/
theorem decodeFrame_opcodeOne (h3 : 3 ≤ args.length + 1) (h15 : args.length + 1 ≤ 15) (hop : op = 0x01#8) :
    decodeFrame (op :: args) = .ok (decodeOpcodeOne args) :=
  (decodeFrame_opcode h3 h15).trans (if_pos hop)

/-- Row SET_RX of R55: the flag is the first argument. -/
theorem decodeFrame_setRx {flag : Byte} {padding : List Byte} (h3 : 3 ≤ args.length + 1) (h15 : args.length + 1 ≤ 15)
    (hop : op = 0x02#8) (hargs : args = flag :: padding) : decodeFrame (op :: args) = .ok (.setRx flag padding) := by
  rw [decodeFrame_opcode h3 h15, hop, hargs]; rfl

/-- Row IGNORED of R55. -/
theorem decodeFrame_ignored (h3 : 3 ≤ args.length + 1) (h15 : args.length + 1 ≤ 15) (hone : op ≠ 0x01#8)
    (htwo : op ≠ 0x02#8) : decodeFrame (op :: args) = .ok (.ignored op args) :=
  (decodeFrame_opcode h3 h15).trans ((if_neg hone).trans (if_neg htwo))

end

/-- A dispatch is `exec` of the frame-level row that R55 gives the frame (R72). -/
theorem exists_decodeFrame_exec_dispatch {n : Nibble} (hn : n ≠ 0) (s : State) :
    ∃ i, decodeFrame (frameBytes s n) = .ok i ∧ i.format = .frame ∧ exec i s = .next (dispatch n s) := by
  have hlt := n.isLt
  have hlen : (frameArgs s n).length + 1 = n.toNat := by
    have := toNat_pos_of_ne_zero hn
    rw [frameArgs_length]; omega
  rw [frameBytes_eq_cons hn]
  rcases dispatch_cases n s with ⟨h3, e⟩ | ⟨h3, h7, h1, e⟩ | ⟨h7, h1, e⟩ | ⟨h3, h2, e⟩ | ⟨h3, h1, h2, e⟩
  · refine ⟨.short (bufRead s 0) (frameArgs s n), decodeFrame_short (by omega), rfl, ?_⟩
    rw [e, exec, execShort, lengthWithArgs_frameArgs hn]
  · refine ⟨.transmitBadLen (frameArgs s n), ?_, rfl, ?_⟩
    · rw [decodeFrame_opcodeOne (by omega) (by omega) h1, decodeOpcodeOne_badLen (by omega)]
    · rw [e, exec, execTransmitBadLen, lengthWithArgs_frameArgs hn]
  · have hseven : frameArgs s n =
        [bufRead s 1, bufRead s 2, bufRead s 3, bufRead s 4, bufRead s 5, bufRead s 6] := by
      rw [frameArgs, h7]; rfl
    refine ⟨.transmit _ _, ?_, rfl, congrArg _ e.symm⟩
    rw [decodeFrame_opcodeOne (by omega) (by omega) h1, hseven, decodeOpcodeOne]
  · obtain ⟨padding, hargs⟩ := frameArgs_eq_cons (n := n) (by omega) s
    exact ⟨.setRx _ padding, decodeFrame_setRx (by omega) (by omega) h2 hargs, rfl, congrArg _ e.symm⟩
  · exact ⟨.ignored _ _, decodeFrame_ignored (by omega) (by omega) h1 h2, rfl, congrArg _ e.symm⟩

/-! ### The events of an action, a dispatch and a completion -/

/-- Whether the next `RfSend` returns: the environment's next answer (R104, I7). -/
def sendAnswer (s : State) : Bool := (s.env.sendReturns.take Config.freeSendReturns).1

theorem sendReturns_iff (s : State) : SendReturns s ↔ sendAnswer s = true := Iff.rfl

/-- The Transmit Action's events (R74): the reset stands in the trace only where the `RfSend` returns (I7). -/
theorem transmitAction_trace (value : Word) (bits : Half) (s : State) :
    (transmitAction value bits s).trace = s.trace ++ actionEvents (.transmit value bits) (sendAnswer s) := by
  rcases transmitAction_cases value bits s with ⟨hr, e⟩ | ⟨hr, e⟩ <;>
  · rw [e, show sendAnswer s = _ from hr]
    simp [actionEvents]

/-- The Receiver-Mode Action's event (R76). -/
theorem receiverModeAction_trace (flag : Byte) (padding : List Byte) (returns : Bool) (s : State) :
    (receiverModeAction (flagOn flag) s).trace = s.trace ++ actionEvents (.setRx flag padding) returns := by
  rw [receiverModeAction_eq, flagOn_eq]
  by_cases h : flag = 0x00#8 <;> simp [actionEvents, h]

/-- A frame-level instruction appends the events of its row. -/
theorem exec_frame_trace {i : Instr} {s t : State} (hi : i.format = .frame) (h : exec i s = .next t) :
    t.trace = s.trace ++ actionEvents i (sendAnswer s) := by
  cases i with
  | transmit value bits => cases h; exact transmitAction_trace value bits s
  | setRx flag padding => cases h; exact receiverModeAction_trace flag padding _ s
  | transmitBadLen _ | ignored _ _ | short _ _ => cases h; rfl
  | header _ | emptyFrame | discardLow _ | discardFifties _ | discardSixties _ | discardHigh _ | payload _ | noByte
  | rfPoll | rfReport _ => cases hi

/-- A dispatch appends the events of its frame (R72): a function of the frame's bytes and the next `RfSend` answer. -/
theorem dispatch_trace {n : Nibble} (hn : n ≠ 0) (s : State) :
    (dispatch n s).trace = s.trace ++ frameEvents (frameBytes s n) (sendAnswer s) := by
  obtain ⟨i, hdecode, hformat, hexec⟩ := exists_decodeFrame_exec_dispatch hn s
  rw [exec_frame_trace hformat hexec, frameEvents, hdecode]

/-- Settles O37: the events are a function of the frame's bytes and the environment. -/
theorem dispatchReadsOnlyTheFrame : Obligations.DispatchReadsOnlyTheFrame := by
  intro s t n hn henv hslots
  refine ⟨_, dispatch_trace hn s, ?_⟩
  have hanswer : sendAnswer s = sendAnswer t := by rw [sendAnswer, henv]; rfl
  rw [dispatch_trace hn t, frameBytes_congr hslots, hanswer]

/-- The Transmit Action whose `RfSend` returns goes on to the reset (R74, R104). -/
theorem transmitAction_of_sendReturns {s : State} (h : SendReturns s) (value : Word) (bits : Half) :
    transmitAction value bits s = (issueRfSend value bits s).2.emit .rfResetAvailable :=
  if_pos h

/-- A dispatch whose `RfSend`, if any, returns leaves the poll loop where it was (R104). -/
theorem dispatch_loop_of_sendReturns {s : State} (h : SendReturns s) (n : Nibble) :
    (dispatch n s).loop = s.loop := by
  rcases dispatch_cases n s with ⟨-, e⟩ | ⟨-, -, -, e⟩ | ⟨-, -, e⟩ | ⟨-, -, e⟩ | ⟨-, -, -, e⟩ <;> rw [e]
  · rfl
  · rfl
  · rw [transmitAction_of_sendReturns h]; rfl
  · rw [receiverModeAction_eq]; rfl
  · rfl

/-- A completion whose `RfSend`, if any, returns is back in the poll loop with the reader cleared (R66). -/
theorem complete_of_sendReturns {s : State} (hl : s.loop = .polling) (h : SendReturns s) :
    (complete s).loop = .polling ∧ ∃ done, complete s = clearReader done := by
  have hloop := dispatch_loop_of_sendReturns (s := s.emit (.dispatch s.len (frameBytes s s.len))) h s.len
  rcases complete_cases s with ⟨hdone, e⟩ | ⟨hpending, -⟩
  · exact ⟨(congrArg State.loop e).trans hdone, _, e⟩
  · have : LoopStatus.sendPending = .polling := hpending.symm.trans (hloop.trans hl)
    cases this

/-- A completion's events, whether its `RfSend` returns or not: the dispatch observation, then those of the frame (R66). -/
theorem complete_trace {s : State} (h : s.len ≠ 0) :
    (complete s).trace = s.trace ++ [.dispatch s.len (frameBytes s s.len)] ++
      frameEvents (frameBytes s s.len) (sendAnswer s) := by
  have hdispatch := dispatch_trace h (s.emit (.dispatch s.len (frameBytes s s.len)))
  rcases complete_cases s with ⟨-, e⟩ | ⟨-, e⟩ <;> rw [e] <;> exact hdispatch

/-- Settles O27: the completion's events, then the cleared reader. -/
theorem completionDispatchesThenClears : Obligations.CompletionDispatchesThenClears := by
  intro s hl hlen hreturns
  have htrace := complete_trace hlen
  rw [(sendReturns_iff s).mp hreturns] at htrace
  obtain ⟨hloop, done, hdone⟩ := complete_of_sendReturns hl hreturns
  refine ⟨?_, ?_, fun a => ?_, hloop, htrace⟩ <;> rw [hdone]
  · exact clearReader_ind done
  · exact clearReader_len done
  · exact Memory.byteAt_nil a

/-! ### Every instruction completes -/

/-- A cursor that is not 15 advances without wrapping to 0. -/
theorem cursor_succ_ne_zero {ind : Nibble} (h : ind ≠ 15) : ind + 1 ≠ 0 := by
  revert ind; decide

/-- PAYLOAD only adds to the trace: nothing, or the events of a completion (R65). -/
theorem execPayload_completes {s : State} (h : s.ind ≠ 15) (b : Byte) :
    ∃ t, execPayload b s = .next t ∧ s.trace <+: t.trace := by
  have hslot : s.ind.toNat < 15 := by
    have := s.ind.isLt
    have : s.ind.toNat ≠ 15 := fun e => h (BitVec.eq_of_toNat_eq e)
    omega
  refine ⟨_, execPayload_eq hslot, ?_⟩
  dsimp only
  split
  · rename_i hlast
    rw [complete_trace (hlast ▸ cursor_succ_ne_zero h), List.append_assoc]
    exact List.prefix_append _ _
  · exact List.prefix_refl _

/-- RF_POLL only adds to the trace (R84). -/
theorem execRfPoll_completes (s : State) : ∃ t, execRfPoll s = .next t ∧ s.trace <+: t.trace := by
  rcases execRfPoll_cases s with ⟨-, e⟩ | ⟨-, e⟩ <;> refine ⟨_, e, ?_⟩ <;> simp

/-- Settles O41: by the instruction, from the events its meaning appends. -/
theorem everyInstructionCompletes : Obligations.EveryInstructionCompletes := by
  intro i s hslot
  cases i with
  | header _ | emptyFrame | noByte => exact ⟨_, rfl, List.prefix_refl _⟩
  | discardLow _ | discardFifties _ | discardSixties _ | discardHigh _ | transmitBadLen _ | ignored _ _ | short _ _
  | rfReport _ => exact ⟨_, rfl, List.prefix_append _ _⟩
  | transmit value bits => exact ⟨_, rfl, _, (transmitAction_trace value bits s).symm⟩
  | setRx flag padding => exact ⟨_, rfl, _, (receiverModeAction_trace flag padding true s).symm⟩
  | payload b => exact execPayload_completes (hslot b rfl) b
  | rfPoll => exact execRfPoll_completes s

/-! ### The events of a step and of a run -/

/-- The trace after a byte completes a frame: the dispatch of the bytes before it and itself, and that frame's events
(R65, R66). -/
theorem complete_store_trace {s : State} (hw : Memory.wf s.buf = true) (hi : s.ind < s.len) (hlast : s.ind + 1 = s.len)
    (b : Byte) :
    (complete ((s.withBuf (Memory.store s.buf s.ind.toNat b)).withInd (s.ind + 1))).trace =
      s.trace ++ [.dispatch s.len (frameBytes s s.ind ++ [b])] ++
        frameEvents (frameBytes s s.ind ++ [b]) (sendAnswer s) := by
  have hframe := frameBytes_store (t := (s.withBuf (Memory.store s.buf s.ind.toNat b)).withInd (s.ind + 1)) hw hi rfl
  rw [hlast] at hframe ⊢
  have htrace := complete_trace (s := (s.withBuf (Memory.store s.buf s.ind.toNat b)).withInd s.len) (length_ne_zero hi)
  rwa [withInd_len, withBuf_len, hframe] at htrace

/-- The last byte of a frame makes the events of one rule's sequence (R65, R66). -/
theorem stepEvents_completed {s : State} (hi : s.ind < s.len) (hlast : s.ind + 1 = s.len) (b : Byte) (returns : Bool) :
    StepEvents ([.hostRead (some b), .dispatch s.len (frameBytes s s.ind ++ [b])] ++
      frameEvents (frameBytes s s.ind ++ [b]) returns) := by
  have hlen : (frameBytes s s.ind ++ [b]).length = s.len.toNat := by
    rw [List.length_append, frameBytes_length, ← hlast, cursor_succ hi]; rfl
  have hlt : s.len.toNat ≤ 15 := Nat.le_of_lt_succ s.len.isLt
  have h := StepEvents.completed b (frameBytes s s.ind ++ [b]) returns ⟨by simp, hlen ▸ hlt⟩ (by simp)
  rwa [hlen, BitVec.ofNat_toNat, BitVec.setWidth_eq] at h

/-- Everything a step from a polling state can do appends one rule's events (R37). -/
theorem StepResult.events {s t : State} (hw : Memory.wf s.buf = true) (hl : s.loop = .polling) (r : StepResult s t) :
    ∃ es, t.trace = s.trace ++ es ∧ StepEvents es := by
  cases r with
  | held h => rw [hl] at h; cases h
  | polledNothing _ _ ha => exact ⟨_, by simp [ha], .polledNothing⟩
  | reported _ _ ha => exact ⟨_, by simp [ha], .reported (askRfGetValue (askRfIsAvailable (takeStepKind s).2).2).1⟩
  | noByte _ _ ha => exact ⟨_, by simp [ha], .noByte⟩
  | opened _ _ b ha => exact ⟨_, by simp [ha], .taken b⟩
  | discarded _ _ b ha _ hb => exact ⟨_, by simp [ha], .discarded b hb⟩
  | stored _ _ b ha => exact ⟨_, by simp [ha], .taken b⟩
  | completed _ _ b ha hi hlast =>
    have htrace := complete_store_trace (s := afterHostRead s) hw hi hlast b
    rw [afterHostRead_trace, ha] at htrace
    exact ⟨_, by simpa using htrace, stepEvents_completed (s := afterHostRead s) hi hlast b _⟩

/-- Settles O18: by everything a step can do. -/
theorem stepAppendsOneStepsEvents : Obligations.StepAppendsOneStepsEvents :=
  fun _ _ hinv hl hstep => (step_cases hstep).events hinv.1 hl

/-- A step appends one block of events, or none where it is inside an unreturned `RfSend` (I7). -/
theorem step_appends_block {s t : State} (hinv : ReaderInv s) (h : step s = .next t) :
    t = s ∨ ∃ es, t.trace = s.trace ++ es ∧ StepEvents es := by
  cases hl : s.loop with
  | polling => exact .inr (stepAppendsOneStepsEvents s t hinv hl h)
  | sendPending => left; simpa [step, hl] using h.symm

/-- A run of `k + 1` steps that answers a next state is a step, then a run of `k`. -/
theorem run_succ_next {k : Nat} {s t : State} (h : Sys2Proof.core.run (k + 1) s = .next t) :
    ∃ u, step s = .next u ∧ Sys2Proof.core.run k u = .next t := by
  rcases step_result s with ⟨e, -⟩ | ⟨u, e, -⟩
  · simp only [Host.Core.run, show Sys2Proof.core.step s = .refused _ from e] at h; cases h
  · exact ⟨u, e, (run_succ e).symm.trans h⟩

/-- Settles O19: by induction on the number of steps, the invariant carried along. -/
theorem runsAppendWholeSteps : Obligations.RunsAppendWholeSteps := by
  intro k
  induction k with
  | zero =>
    intro s t _ hrun
    cases hrun
    exact ⟨[], Nat.le_refl 0, by simp, by simp⟩
  | succ k ih =>
    intro s t hinv hrun
    obtain ⟨u, hstep, hrest⟩ := run_succ_next hrun
    obtain ⟨blocks, hcount, htrace, hblocks⟩ := ih u t ((step_cases hstep).readerInv hinv) hrest
    rcases step_appends_block hinv hstep with rfl | ⟨es, hes, hrule⟩
    · exact ⟨blocks, Nat.le_succ_of_le hcount, htrace, hblocks⟩
    · refine ⟨es :: blocks, Nat.succ_le_succ hcount, ?_, List.forall_mem_cons.mpr ⟨hrule, hblocks⟩⟩
      rw [htrace, hes, List.flatten_cons, List.append_assoc]

end Sys2Proof.Machine
end

section
/-!
PROOFS. The encodings (spec/30_encoding.md R42 to R58): the byte classes, the frame table, the report, the decoder and the
encoder as inverses, and the steps that run what was decoded.
-/

namespace Sys2Proof.Machine

/-! ### A byte read while IDLE -/

/-- Two bit fields side by side, as a number. -/
theorem append_toNat {m n : Nat} (x : BitVec m) (y : BitVec n) : (x ++ y).toNat = x.toNat * 2 ^ n + y.toNat := by
  rw [BitVec.toNat_append, ← Nat.shiftLeft_add_eq_or_of_lt y.isLt, Nat.shiftLeft_eq]

theorem isHeader_iff_tagOf (b : Byte) : isHeader b = true ↔ tagOf b = 0b0100#4 := beq_iff_eq

/-- The header bytes as numbers (R43, R54). -/
theorem isHeader_iff_range (b : Byte) : isHeader b = true ↔ 64 ≤ b.toNat ∧ b.toNat < 80 := by
  have hb := b.isLt
  have htag : (tagOf b).toNat = b.toNat / 16 % 16 := by
    simp [tagOf, BitVec.extractLsb'_toNat, Nat.shiftRight_eq_div_pow]
  rw [isHeader_iff_tagOf, ← BitVec.toNat_inj, htag, BitVec.toNat_ofNat]
  omega

/-- A byte that is no header is one of the four DISCARD rows while IDLE, and that row spells it (R53, R54). -/
theorem decodeIdleByte_discard {b : Byte} (h : isHeader b = false) :
    ∃ i, decodeIdleByte b = i ∧ encode i = [b] ∧
      ((∃ x, i = .discardLow x) ∨ (∃ x, i = .discardFifties x) ∨ (∃ x, i = .discardSixties x) ∨
        ∃ x, i = .discardHigh x) := by
  rcases decodeIdleByte_cases b with ⟨hh, -⟩ | ⟨hh, -⟩ | ⟨-, x, d, e⟩ | ⟨-, x, d, e⟩ | ⟨-, x, d, e⟩ | ⟨-, x, d, e⟩
  · rw [h] at hh; cases hh
  · rw [h] at hh; cases hh
  · exact ⟨_, d, congrArg ([·]) e, .inl ⟨x, rfl⟩⟩
  · exact ⟨_, d, congrArg ([·]) e, .inr (.inl ⟨x, rfl⟩)⟩
  · exact ⟨_, d, congrArg ([·]) e, .inr (.inr (.inl ⟨x, rfl⟩))⟩
  · exact ⟨_, d, congrArg ([·]) e, .inr (.inr (.inr ⟨x, rfl⟩))⟩

/-- A header while IDLE is EMPTY_FRAME at length 0 and HEADER at any other (R53, R63). -/
theorem decodeIdleByte_header {b : Byte} (h : isHeader b = true) :
    decodeIdleByte b = if lengthOf b = 0 then .emptyFrame else .header (lengthOf b) :=
  if_pos h

/-- A byte while IDLE decodes to a well-formed row of its format that spells it. -/
theorem decodeIdleByte_spells (b : Byte) :
    (decodeIdleByte b).wellFormed = true ∧ (decodeIdleByte b).format = .byteWhileIdle ∧
      encode (decodeIdleByte b) = [b] := by
  cases h : isHeader b with
  | false =>
    obtain ⟨i, hd, he, hrow⟩ := decodeIdleByte_discard h
    rw [hd]
    rcases hrow with ⟨x, rfl⟩ | ⟨x, rfl⟩ | ⟨x, rfl⟩ | ⟨x, rfl⟩ <;> exact ⟨rfl, rfl, he⟩
  | true =>
    have hb := headerByte_lengthOf h
    rw [decodeIdleByte_header h]
    split
    · rename_i hzero
      rw [hzero] at hb
      exact ⟨rfl, rfl, congrArg ([·]) hb⟩
    · rename_i hlen
      exact ⟨(wellFormed_header _).mpr hlen, rfl, congrArg ([·]) hb⟩

/-- The header byte of a length that is not 0 is the row HEADER (R43). -/
theorem decodeIdleByte_headerByte {n : Nibble} (h : n ≠ 0) : decodeIdleByte (headerByte n) = .header n := by
  obtain ⟨hlen, hheader⟩ := headerByte_spec n
  rw [decodeIdleByte_header hheader, hlen, if_neg h]

/-- The four DISCARD patterns, at every value of their operand (R54). -/
theorem decodeIdleByte_discardPatterns :
    (∀ x : BitVec 6, decodeIdleByte (0b00#2 ++ x) = .discardLow x) ∧
    (∀ x : BitVec 4, decodeIdleByte (0b0101#4 ++ x) = .discardFifties x) ∧
    (∀ x : BitVec 5, decodeIdleByte (0b011#3 ++ x) = .discardSixties x) ∧
    ∀ x : BitVec 7, decodeIdleByte (0b1#1 ++ x) = .discardHigh x := by
  decide

/-- The five ranges of a byte read while IDLE: the headers, then the four DISCARD rows (R43, R54). -/
theorem decodeIdleByte_ranges (b : Byte) :
    (64 ≤ b.toNat ∧ b.toNat < 80) ∨
    (b.toNat < 64 ∧ ∃ x, decodeIdleByte b = .discardLow x) ∨
    (80 ≤ b.toNat ∧ b.toNat < 96 ∧ ∃ x, decodeIdleByte b = .discardFifties x) ∨
    (96 ≤ b.toNat ∧ b.toNat < 128 ∧ ∃ x, decodeIdleByte b = .discardSixties x) ∨
    (128 ≤ b.toNat ∧ ∃ x, decodeIdleByte b = .discardHigh x) := by
  rcases decodeIdleByte_cases b with ⟨h, -⟩ | ⟨h, -⟩ | ⟨-, x, d, e⟩ | ⟨-, x, d, e⟩ | ⟨-, x, d, e⟩ | ⟨-, x, d, e⟩
  · exact .inl ((isHeader_iff_range b).mp h)
  · exact .inl ((isHeader_iff_range b).mp h)
  all_goals have hx := x.isLt
  all_goals have hb : b.toNat = _ := e ▸ append_toNat _ x
  all_goals simp only [BitVec.toNat_ofNat] at hb
  · exact .inr (.inl ⟨by omega, x, d⟩)
  · exact .inr (.inr (.inl ⟨by omega, by omega, x, d⟩))
  · exact .inr (.inr (.inr (.inl ⟨by omega, by omega, x, d⟩)))
  · exact .inr (.inr (.inr (.inr ⟨by omega, x, d⟩)))

/-- Settles O6: the five ranges exclude each other. -/
theorem idleByteRanges : Obligations.IdleByteRanges := by
  intro b
  refine ⟨isHeader_iff_range b, ?_⟩
  rcases decodeIdleByte_ranges b with ⟨h1, h2⟩ | ⟨h, d⟩ | ⟨h1, h2, d⟩ | ⟨h1, h2, d⟩ | ⟨h, d⟩
  · exact ⟨by omega, by omega, by omega, by omega⟩
  · exact ⟨fun _ => d, by omega, by omega, by omega⟩
  · exact ⟨by omega, fun _ _ => d, by omega, by omega⟩
  · exact ⟨by omega, by omega, fun _ _ => d, by omega⟩
  · exact ⟨by omega, by omega, by omega, fun _ => d⟩

/-- Row 1 of R53: a byte while ACCUMULATING is PAYLOAD, whatever its bits. -/
theorem decodeInput_of_lt {ind len : Nibble} (h : ind < len) (b : Byte) :
    decodeInput ind len (some b) = .ok (.payload b) :=
  if_pos h

/-- Rows 2 and 3 of R53: a byte while IDLE is what `decodeIdleByte` makes of it. -/
theorem decodeInput_of_eq {ind len : Nibble} (h : ind = len) (b : Byte) :
    decodeInput ind len (some b) = .ok (decodeIdleByte b) :=
  (if_neg (h ▸ BitVec.lt_irrefl len)).trans (if_pos h)

/-- Settles O5: by the reader's state, then by the header test. -/
theorem byteClassesFollowTheReaderState : Obligations.ByteClassesFollowTheReaderState := by
  intro ind len b
  refine ⟨fun hlt => decodeInput_of_lt hlt b, fun heq htag => ?_, fun heq htag => ?_, rfl⟩ <;>
    rw [decodeInput_of_eq heq]
  · rw [decodeIdleByte_header ((isHeader_iff_tagOf b).mpr htag)]
  · have hb : isHeader b = false := Bool.eq_false_iff.mpr (mt (isHeader_iff_tagOf b).mp htag)
    obtain ⟨i, hd, hspell, hrow⟩ := decodeIdleByte_discard hb
    exact ⟨i, congrArg Except.ok hd, hspell, hrow⟩

/-! ### A frame's bytes -/

/-- The frame of assembled operands is the opcode and the bytes assembled (R46, R48, R49). -/
theorem transmitFrame_assemble (f1 f2 f3 f4 f5 f6 : Byte) :
    transmitFrame (assembleValue f1 f2 f3 f4) (assembleBits f5 f6) = [0x01#8, f1, f2, f3, f4, f5, f6] := by
  obtain ⟨h1, h2, h3, h4⟩ := valueByte_assembleValue f1 f2 f3 f4
  obtain ⟨h5, h6⟩ := extract_assembleBits f5 f6
  rw [transmitFrame, h1, h2, h3, h4, h5, h6]; rfl

/-- Row TRANSMIT of R55 at the frame that spells its operands. -/
theorem decodeFrame_transmitFrame (value : Word) (bits : Half) :
    decodeFrame (transmitFrame value bits) = .ok (.transmit value bits) := by
  calc decodeFrame (transmitFrame value bits)
    _ = .ok (.transmit (assembleValue (valueByte value 3) (valueByte value 2) (valueByte value 1) (valueByte value 0))
          (assembleBits (bits.extractLsb' 8 8) (bits.extractLsb' 0 8))) := rfl
    _ = .ok (.transmit value bits) := by rw [assembleValue_valueByte, assembleBits_extract]

section
variable {op : Byte} {args : List Byte}

/-- Row TRANSMIT of R55: seven bytes after opcode 1 are the frame of some operands. -/
theorem decodeFrame_transmit (hop : op = 0x01#8) (h7 : args.length + 1 = 7) :
    ∃ value bits, decodeFrame (op :: args) = .ok (.transmit value bits) ∧ transmitFrame value bits = op :: args := by
  have h6 : args.length = 6 := by omega
  match args, h6 with
  | [f1, f2, f3, f4, f5, f6], _ =>
    have hframe := transmitFrame_assemble f1 f2 f3 f4 f5 f6
    exact ⟨_, _, by rw [hop, ← hframe, decodeFrame_transmitFrame], by rw [hframe, hop]⟩

/-- Row TRANSMIT_BADLEN of R55. -/
theorem decodeFrame_transmitBadLen (h3 : 3 ≤ args.length + 1) (h15 : args.length + 1 ≤ 15) (hop : op = 0x01#8)
    (h7 : args.length + 1 ≠ 7) : decodeFrame (op :: args) = .ok (.transmitBadLen args) := by
  rw [decodeFrame_opcodeOne h3 h15 hop, decodeOpcodeOne_badLen (by omega)]

/-- A frame of 1 to 15 bytes decodes to a well-formed frame-level row that spells it (R55). -/
theorem exists_decodeFrame_spells (h15 : args.length + 1 ≤ 15) :
    ∃ i, decodeFrame (op :: args) = .ok i ∧ i.format = .frame ∧ i.wellFormed = true ∧
      encode i = encodeFrame (op :: args) := by
  by_cases h3 : 3 ≤ args.length + 1
  · by_cases hone : op = 0x01#8
    · by_cases h7 : args.length + 1 = 7
      · obtain ⟨value, bits, hd, hframe⟩ := decodeFrame_transmit hone h7
        exact ⟨_, hd, rfl, rfl, congrArg encodeFrame hframe⟩
      · exact ⟨_, decodeFrame_transmitBadLen h3 h15 hone h7, rfl, (wellFormed_transmitBadLen args).mpr ⟨⟨h3, h15⟩, h7⟩,
          by rw [hone]; rfl⟩
    · by_cases htwo : op = 0x02#8
      · match args with
        | flag :: padding =>
          exact ⟨_, decodeFrame_setRx h3 h15 htwo rfl, rfl, (wellFormed_setRx flag padding).mpr ⟨h3, h15⟩,
            by rw [htwo]; rfl⟩
      · exact ⟨_, decodeFrame_ignored h3 h15 hone htwo, rfl,
          (wellFormed_ignored op args).mpr ⟨⟨⟨h3, h15⟩, hone⟩, htwo⟩, rfl⟩
  · have hshort : args.length + 1 < 3 := by omega
    exact ⟨_, decodeFrame_short hshort, rfl, (wellFormed_short op args).mpr hshort, rfl⟩

end

/-- Only a frame with an opcode and at most 14 bytes after it decodes (R45, R63). -/
theorem exists_cons_of_decodeFrame {frame : List Byte} {i : Instr} (h : decodeFrame frame = .ok i) :
    ∃ op args, frame = op :: args ∧ args.length + 1 ≤ 15 := by
  cases frame with
  | nil => cases h
  | cons op args =>
    refine ⟨op, args, rfl, Nat.not_lt.mp fun hlong => ?_⟩
    have hreject : decodeFrame (op :: args) = .error .frameTooLong := if_pos hlong
    rw [hreject] at h; cases h

/-- A frame that decodes has 1 to 15 bytes (R45, R63). -/
theorem length_of_decodeFrame {frame : List Byte} {i : Instr} (h : decodeFrame frame = .ok i) :
    frame ≠ [] ∧ frame.length ≤ 15 := by
  obtain ⟨op, args, rfl, h15⟩ := exists_cons_of_decodeFrame h
  exact ⟨List.cons_ne_nil op args, h15⟩

/-- Settles O7: the rows of R55 one at a time. -/
theorem frameClassesByLengthThenOpcode : Obligations.FrameClassesByLengthThenOpcode := by
  intro op args h15
  refine ⟨fun h2 => decodeFrame_short (by omega), fun h3 => ⟨decodeFrame_transmit,
    decodeFrame_transmitBadLen h3 h15, fun htwo => ?_, decodeFrame_ignored h3 h15⟩⟩
  match args with
  | flag :: padding => exact ⟨flag, padding, rfl, decodeFrame_setRx h3 h15 htwo rfl⟩

/-- Settles O8: the operands are the ones R48 and R49 assemble. -/
theorem transmitOperandsAreBigEndian : Obligations.TransmitOperandsAreBigEndian :=
  fun f1 f2 f3 f4 f5 f6 => ⟨assembleValue f1 f2 f3 f4, assembleBits f5 f6, rfl, assembleValue_toNat f1 f2 f3 f4,
    assembleBits_toNat f5 f6⟩

/-- Settles O29: the frame-level row whose `exec` is the dispatch. -/
theorem dispatchRunsTheFramesInstruction : Obligations.DispatchRunsTheFramesInstruction := by
  intro s n hn
  obtain ⟨i, hdecode, -, hexec⟩ := exists_decodeFrame_exec_dispatch hn s
  exact ⟨i, hdecode, hexec⟩

/-- The frame table read both ways (R55): the rows of a frame are the well-formed frame-level rows that spell it. -/
theorem decodeFrame_eq_ok_iff {frame : List Byte} {i : Instr} :
    decodeFrame frame = .ok i ↔ i.format = .frame ∧ i.wellFormed = true ∧ encode i = encodeFrame frame := by
  constructor
  · intro h
    obtain ⟨op, args, rfl, h15⟩ := exists_cons_of_decodeFrame h
    obtain ⟨j, hj, hspells⟩ := exists_decodeFrame_spells (op := op) h15
    cases hj.symm.trans h
    exact hspells
  · rintro ⟨hformat, hwf, hspell⟩
    cases i with
    | transmit value bits =>
      cases (List.cons.inj hspell).2
      exact decodeFrame_transmitFrame value bits
    | transmitBadLen args =>
      cases (List.cons.inj hspell).2
      obtain ⟨⟨h3, h15⟩, h7⟩ := (wellFormed_transmitBadLen args).mp hwf
      exact decodeFrame_transmitBadLen h3 h15 rfl h7
    | setRx flag padding =>
      cases (List.cons.inj hspell).2
      obtain ⟨h3, h15⟩ := (wellFormed_setRx flag padding).mp hwf
      exact decodeFrame_setRx h3 h15 rfl rfl
    | ignored op args =>
      cases (List.cons.inj hspell).2
      obtain ⟨⟨⟨h3, h15⟩, hone⟩, htwo⟩ := (wellFormed_ignored op args).mp hwf
      exact decodeFrame_ignored h3 h15 hone htwo
    | short op args =>
      cases (List.cons.inj hspell).2
      exact decodeFrame_short ((wellFormed_short op args).mp hwf)
    | header _ | emptyFrame | discardLow _ | discardFifties _ | discardSixties _ | discardHigh _ | payload _ | noByte
    | rfPoll | rfReport _ => cases hformat

/-! ### A message on the wire, and a report -/

/-- A frame-level row is spelled as the wire form of some frame (R42). -/
theorem exists_frame_of_format {i : Instr} (h : i.format = .frame) : ∃ frame, encode i = encodeFrame frame := by
  cases i with
  | transmit _ _ | transmitBadLen _ | setRx _ _ | ignored _ _ | short _ _ => exact ⟨_, rfl⟩
  | header _ | emptyFrame | discardLow _ | discardFifties _ | discardSixties _ | discardHigh _ | payload _ | noByte
  | rfPoll | rfReport _ => cases h

/-- A 4-bit number keeps a length of at most 15. -/
theorem nibble_ofNat_toNat {n : Nat} (h : n ≤ 15) : (BitVec.ofNat 4 n).toNat = n := by
  rw [BitVec.toNat_ofNat]; omega

/-- A frame of at most 15 bytes on the wire is decoded by its bytes, and nothing after them is taken (R42). -/
theorem decodeWire_encodeFrame {frame : List Byte} (h : frame.length ≤ 15) (rest : List Byte) :
    decodeWire (encodeFrame frame ++ rest) = (decodeFrame frame).map fun i => (i, rest) := by
  obtain ⟨hlen, hheader⟩ := headerByte_spec (BitVec.ofNat 4 frame.length)
  simp [encodeFrame, decodeWire, hheader, hlen, nibble_ofNat_toNat h]

/-- A header and the frame bytes it announces are the wire form of those bytes (R42). -/
theorem encodeFrame_take {h : Byte} {rest : List Byte} (hheader : isHeader h = true)
    (hlen : (lengthOf h).toNat ≤ rest.length) :
    encodeFrame (rest.take (lengthOf h).toNat) ++ rest.drop (lengthOf h).toNat = h :: rest := by
  rw [encodeFrame, List.length_take_of_le hlen, BitVec.ofNat_toNat, BitVec.setWidth_eq, headerByte_lengthOf hheader,
    List.cons_append, List.take_append_drop]

/-- What decodes from the wire is the wire form of a frame that decodes, then the bytes left over (R42). -/
theorem exists_frame_of_decodeWire {bytes rest : List Byte} {i : Instr} (h : decodeWire bytes = .ok (i, rest)) :
    ∃ frame, decodeFrame frame = .ok i ∧ encodeFrame frame ++ rest = bytes := by
  cases bytes with
  | nil => cases h
  | cons b tail =>
    simp only [decodeWire] at h
    split at h
    · rename_i hheader
      split at h
      · cases h
      · rename_i hlen
        cases hd : decodeFrame (tail.take (lengthOf b).toNat) with
        | error r => rw [hd] at h; cases h
        | ok j =>
          rw [hd] at h; cases h
          exact ⟨_, hd, encodeFrame_take hheader (Nat.not_lt.mp hlen)⟩
    · cases h

/-- Only the six bytes of a value's report are a report (R52). -/
theorem decodeReport_eq_ok_iff {bytes rest : List Byte} {i : Instr} :
    decodeReport bytes = .ok (i, rest) ↔ ∃ v, i = .rfReport v ∧ reportBytes v ++ rest = bytes := by
  constructor
  · intro h
    unfold decodeReport at h
    split at h
    · rename_i t v0 v1 v2 v3 e tail
      split at h
      · rename_i hends
        obtain ⟨rfl, rfl⟩ := hends
        cases h
        obtain ⟨h3, h2, h1, h0⟩ := valueByte_assembleValue v3 v2 v1 v0
        exact ⟨_, rfl, by rw [reportBytes, h0, h1, h2, h3]; rfl⟩
      · cases h
    · cases h
  · rintro ⟨v, rfl, rfl⟩
    simp [reportBytes, decodeReport, assembleValue_valueByte]

/-! ### The decoder and the encoder as inverses -/

/-- A well-formed frame-level row is read back from the wire (R42, R55). -/
theorem decode_encode_frame {i : Instr} (hformat : i.format = .frame) (hwf : i.wellFormed = true) (rest : List Byte) :
    decodeWire (encode i ++ rest) = .ok (i, rest) := by
  obtain ⟨frame, hspell⟩ := exists_frame_of_format hformat
  have hdecode := decodeFrame_eq_ok_iff.mpr ⟨hformat, hwf, hspell⟩
  rw [hspell, decodeWire_encodeFrame (length_of_decodeFrame hdecode).2, hdecode]; rfl

/-- A well-formed row read while IDLE is read back from its byte, and the bytes after it stand. -/
theorem decode_encode_idle {i : Instr} (hformat : i.format = .byteWhileIdle) (hwf : i.wellFormed = true)
    (rest : List Byte) : decode .byteWhileIdle (encode i ++ rest) = .ok (i, rest) := by
  obtain ⟨hlow, hfifties, hsixties, hhigh⟩ := decodeIdleByte_discardPatterns
  have htake : ∀ {b : Byte} {j : Instr}, decodeIdleByte b = j → decode .byteWhileIdle (b :: rest) = .ok (j, rest) :=
    fun h => congrArg (fun j => Except.ok (j, rest)) h
  cases i with
  | header len => exact htake (decodeIdleByte_headerByte ((wellFormed_header len).mp hwf))
  | emptyFrame => rfl
  | discardLow x => exact htake (hlow x)
  | discardFifties x => exact htake (hfifties x)
  | discardSixties x => exact htake (hsixties x)
  | discardHigh x => exact htake (hhigh x)
  | payload _ | noByte | transmit _ _ | transmitBadLen _ | setRx _ _ | ignored _ _ | short _ _ | rfPoll | rfReport _ =>
    cases hformat

/-- Settles O3: by the instruction, each format by its own table. -/
theorem decodeOfEncodeIsTheInstruction : Obligations.DecodeOfEncodeIsTheInstruction := by
  intro i rest hwf
  cases i with
  | header _ | emptyFrame | discardLow _ | discardFifties _ | discardSixties _ | discardHigh _ =>
    exact decode_encode_idle rfl hwf rest
  | payload _ | noByte | rfPoll => rfl
  | transmit _ _ | transmitBadLen _ | setRx _ _ | ignored _ _ | short _ _ => exact decode_encode_frame rfl hwf rest
  | rfReport v => exact decodeReport_eq_ok_iff.mpr ⟨v, rfl, rfl⟩

/-- Settles O4: by the format, each from its own table read backwards. -/
theorem encodeOfDecodeIsTheBytes : Obligations.EncodeOfDecodeIsTheBytes := by
  intro f bytes i rest h
  cases f with
  | byteWhileIdle =>
    cases bytes with
    | nil => cases h
    | cons b tail =>
      cases h
      obtain ⟨hwf, hformat, hspell⟩ := decodeIdleByte_spells b
      exact ⟨hwf, hformat, by rw [hspell]; rfl⟩
  | byteWhileAccumulating =>
    cases bytes with
    | nil => cases h
    | cons b tail => cases h; exact ⟨rfl, rfl, rfl⟩
  | noByte | step => cases h; exact ⟨rfl, rfl, rfl⟩
  | frame =>
    obtain ⟨frame, hdecode, hbytes⟩ := exists_frame_of_decodeWire h
    obtain ⟨hformat, hwf, hspell⟩ := decodeFrame_eq_ok_iff.mp hdecode
    exact ⟨hwf, hformat, hspell ▸ hbytes⟩
  | report =>
    obtain ⟨v, rfl, hbytes⟩ := decodeReport_eq_ok_iff.mp h
    exact ⟨rfl, rfl, hbytes⟩

/-- Settles O2: the decoder evaluated at each word. -/
theorem tableWordsDecodeToTheirRows : Obligations.TableWordsDecodeToTheirRows :=
  ⟨rfl, rfl, rfl, rfl, rfl, rfl, rfl⟩

/-! ### The assembler -/

/-- The header byte of R58's FRAME is the one of R43. -/
theorem headerByte_ofNat {n : Nat} (h : n ≤ 15) : BitVec.ofNat 8 (0x40 + n) = headerByte (BitVec.ofNat 4 n) := by
  apply BitVec.eq_of_toNat_eq
  rw [headerByte, append_toNat, nibble_ofNat_toNat h, BitVec.toNat_ofNat, BitVec.toNat_ofNat]
  omega

/-- FRAME of at most 15 bytes is the frame's wire form (R58, R42). -/
theorem assemble_frame {fs : List Byte} (h : fs.length ≤ 15) : assemble (.frame fs) = some (encodeFrame fs) := by
  rw [encodeFrame, ← headerByte_ofNat h]
  exact if_pos h

/-- Settles O9: TRANSMIT, SETRX and FRAME are wire forms of frames; every other form writes out its bytes. -/
theorem assembledFormsAreTheEncodings : Obligations.AssembledFormsAreTheEncodings := by
  refine ⟨fun value bits => ?_, fun flag => ?_, rfl, rfl, rfl, fun fs _ h15 => ?_, rfl, fun _ => rfl, fun _ => rfl⟩
  · exact assemble_frame (fs := transmitFrame value bits) (by simp [transmitFrame])
  · exact assemble_frame (fs := [0x02, flag, 0x00]) (by simp)
  · refine ⟨_, assemble_frame h15, fun i hdecode => ?_⟩
    have hwire := decodeWire_encodeFrame h15 []
    rw [List.append_nil, hdecode] at hwire
    exact hwire

/-! ### A byte step runs what its answer decodes to -/

/-- A byte step is `exec` of the row its answer decodes to (R59). -/
theorem step_of_decodeInput {s : State} {a : Option Byte} {i : Instr} (hl : s.loop = .polling) (hn : NextByteIs s a)
    (hd : decodeInput s.ind s.len a = .ok i) : step s = exec i (afterHostRead s) := by
  obtain ⟨hkind, rfl⟩ := hn
  simp only [step, hl, fetch, hkind, fetchByte, takeStepKind_ind, takeStepKind_len, hd, afterHostRead]

/-- The trace in which a byte's instruction runs ends with the `HostRead` (R59). -/
theorem afterHostRead_trace_of_nextByteIs {s : State} {a : Option Byte} (hn : NextByteIs s a) :
    (afterHostRead s).trace = s.trace ++ [.hostRead a] := by
  rw [afterHostRead_trace, show hostAnswer s = a from hn.2]

/-- A header's length is its low four bits (R51). -/
theorem lengthOf_zeroExtend (b : Byte) : (lengthOf b).zeroExtend 8 = b &&& Config.lenMask := by
  revert b; decide

/-- Settles O22: both rows open a frame, and a header's step runs one of them. -/
theorem headerSetsLengthAndCursor : Obligations.HeaderSetsLengthAndCursor := by
  intro s
  refine ⟨fun _ => rfl, rfl, fun b hl hidle hheader hn => ?_⟩
  have hopen : exec (decodeIdleByte b) (afterHostRead s) = .next (openFrame (lengthOf b) (afterHostRead s)) := by
    rcases exec_decodeIdleByte b (afterHostRead s) with ⟨-, hx⟩ | ⟨hb, -⟩
    · exact hx
    · rw [hheader] at hb; cases hb
  exact ⟨_, (step_of_decodeInput hl hn (decodeInput_of_eq hidle b)).trans hopen, lengthOf_zeroExtend b, rfl, rfl, hl,
    afterHostRead_trace_of_nextByteIs hn⟩

/-- A step whose byte completes a frame adds the `HostRead`, the dispatch observation, and the frame's events (R65, R66). -/
theorem step_completing {s : State} {b : Byte} (hw : Memory.wf s.buf = true) (hl : s.loop = .polling)
    (hn : NextByteIs s (some b)) (hi : s.ind < s.len) (hlast : s.ind + 1 = s.len) :
    ∃ t, step s = .next t ∧ t.trace = s.trace ++ [.hostRead (some b), .dispatch s.len (frameBytes s s.ind ++ [b])] ++
      frameEvents (frameBytes s s.ind ++ [b]) (sendAnswer s) := by
  have hexec := execPayload_eq (s := afterHostRead s) (b := b) (cursor_lt_fifteen hi)
  have htrace := complete_store_trace (s := afterHostRead s) hw hi hlast b
  rw [afterHostRead_trace_of_nextByteIs hn, List.append_assoc s.trace] at htrace
  exact ⟨_, (step_of_decodeInput hl hn (decodeInput_of_lt hi b)).trans (hexec.trans (congrArg _ (if_pos hlast))), htrace⟩

/-! ### RF_POLL -/

/-- Settles O38: by what the first query answers. -/
theorem rfPollReportsAnAvailableValue : Obligations.RfPollReportsAnAvailableValue := by
  intro s
  rcases execRfPoll_cases s with ⟨ha, hx⟩ | ⟨ha, hx⟩
  · refine ⟨fun _ => hx.trans (congrArg _ ?_), fun h => ?_⟩
    · exact State.eq_of_fields rfl rfl rfl (by simp [ha]) rfl rfl
    · cases ha.symm.trans h
  · refine ⟨fun h => ?_, fun _ v hv => hx.trans (congrArg _ ?_)⟩
    · cases ha.symm.trans h
    · have hvalue : (askRfGetValue (askRfIsAvailable s).2).1 = v := hv
      refine State.eq_of_fields rfl rfl rfl ?_ rfl rfl
      simp [ha, hvalue, reportBytes, valueByte, Config.reportTerm]

/-! ### A word placed for the host (log 11) -/

section
variable (a : Option Byte) (s : State)

@[simp] theorem expectByte_ind : (expectByte a s).ind = s.ind := rfl
@[simp] theorem expectByte_len : (expectByte a s).len = s.len := rfl
@[simp] theorem expectByte_buf : (expectByte a s).buf = s.buf := rfl
@[simp] theorem expectByte_trace : (expectByte a s).trace = s.trace := rfl
@[simp] theorem expectByte_loop : (expectByte a s).loop = .polling := rfl
@[simp] theorem frameBytes_expectByte (n : Nibble) : frameBytes (expectByte a s) n = frameBytes s n := rfl
@[simp] theorem sendAnswer_expectByte : sendAnswer (expectByte a s) = true := rfl

theorem nextByteIs_expectByte : NextByteIs (expectByte a s) a := ⟨rfl, rfl⟩

/-- The reader is IDLE where a byte is placed to be read while IDLE. -/
theorem ensureIdle_idle : (ensureIdle s).ind = (ensureIdle s).len := by
  unfold ensureIdle
  split
  · assumption
  · rfl

end

/-- Storing bytes one after another in the fifteen slots keeps the canonical form. -/
theorem wf_storeBytes {m : Memory} {a : Nat} {bytes : List Byte} (hm : Memory.wf m = true) (h : a + bytes.length ≤ 15) :
    Memory.wf (storeBytes m a bytes) = true := by
  induction bytes generalizing m a with
  | nil => exact hm
  | cons b rest ih =>
    rw [List.length_cons] at h
    exact ih (Memory.wf_store (by omega) hm) (by omega)

/-- Storing bytes leaves the slots below them alone. -/
theorem byteAt_storeBytes_below {m : Memory} {a j : Nat} (bytes : List Byte) (h : j < a) :
    Memory.byteAt (storeBytes m a bytes) j = Memory.byteAt m j := by
  induction bytes generalizing m a with
  | nil => rfl
  | cons b rest ih => exact (ih (Nat.lt_succ_of_lt h)).trans (Memory.byteAt_store_other (Nat.ne_of_lt h))

/-- Bytes stored one after another are read back in order. -/
theorem map_byteAt_storeBytes {m : Memory} {a : Nat} {bytes : List Byte} (hm : Memory.wf m = true)
    (h : a + bytes.length ≤ 15) :
    (List.range bytes.length).map (fun j => Memory.byteAt (storeBytes m a bytes) (a + j)) = bytes := by
  induction bytes generalizing m a with
  | nil => rfl
  | cons b rest ih =>
    rw [List.length_cons] at h
    have hrest := ih (m := Memory.store m a b) (a := a + 1) (Memory.wf_store (by omega) hm) (by omega)
    have hhead : Memory.byteAt (storeBytes m a (b :: rest)) a = b :=
      (byteAt_storeBytes_below rest (Nat.lt_succ_self a)).trans (Memory.byteAt_store_same hm)
    rw [List.length_cons, List.range_succ_eq_map, List.map_cons, List.map_map, Nat.add_zero, hhead]
    refine congrArg (b :: ·) (Eq.trans (List.map_congr_left fun j _ => ?_) hrest)
    rw [Nat.add_right_comm]; rfl

/-- The frame bytes in a buffer filled from slot 0. -/
theorem frameBytes_of_storeBytes {s : State} {n : Nibble} {bytes : List Byte} (hn : n.toNat = bytes.length)
    (hbuf : s.buf = storeBytes [] 0 bytes) : frameBytes s n = bytes := by
  have := n.isLt
  have hmap := map_byteAt_storeBytes (a := 0) (bytes := bytes) Memory.wf_nil (by omega)
  simp only [Nat.zero_add] at hmap
  rw [frameBytes, hn, hbuf, hmap]

/-- The reader with the bytes of a frame received, all but one (log 11). -/
def receivedAllButOne (init : List Byte) (s : State) : State :=
  ((s.withLen (BitVec.ofNat 4 (init.length + 1))).withInd (BitVec.ofNat 4 init.length)).withBuf (storeBytes [] 0 init)

/-- A placed frame is all of it but its last byte in the buffer, and that byte expected. -/
theorem expectFrame_concat (init : List Byte) (b : Byte) (s : State) :
    expectFrame (init ++ [b]) s = expectByte (some b) (receivedAllButOne init s) := by
  simp [expectFrame, receivedAllButOne]

/-- The reader that lacks one byte: the buffer is canonical, the cursor is one below the length, the rest is received. -/
theorem receivedAllButOne_reader {init : List Byte} (h : init.length + 1 ≤ 15) (s : State) :
    Memory.wf (receivedAllButOne init s).buf = true ∧
      (receivedAllButOne init s).ind < (receivedAllButOne init s).len ∧
      (receivedAllButOne init s).ind + 1 = (receivedAllButOne init s).len ∧
      frameBytes (receivedAllButOne init s) (receivedAllButOne init s).ind = init := by
  have hind : (receivedAllButOne init s).ind.toNat = init.length := nibble_ofNat_toNat (by omega)
  have hlen : (receivedAllButOne init s).len.toNat = init.length + 1 := nibble_ofNat_toNat h
  have hlt : (receivedAllButOne init s).ind < (receivedAllButOne init s).len := by rw [BitVec.lt_def]; omega
  refine ⟨wf_storeBytes Memory.wf_nil (by omega), hlt, BitVec.eq_of_toNat_eq ?_, frameBytes_of_storeBytes hind rfl⟩
  rw [cursor_succ hlt, hind, hlen]

/-- The events of a frame's dispatch are those of the row it decodes to (R55). -/
theorem frameEvents_of_decodeFrame {frame : List Byte} {i : Instr} (h : decodeFrame frame = .ok i) (returns : Bool) :
    frameEvents frame returns = actionEvents i returns := by
  rw [frameEvents, h]

/-- The step after a frame is placed completes it: the `HostRead`, the dispatch observation, and the events of its row. -/
theorem step_expectFrame {frame : List Byte} {i : Instr} (h : decodeFrame frame = .ok i) (s : State) :
    ∃ t b, step (expectFrame frame s) = .next t ∧
      t.trace = s.trace ++ [.hostRead (some b), .dispatch (BitVec.ofNat 4 frame.length) frame] ++
        actionEvents i true := by
  obtain ⟨hne, h15⟩ := length_of_decodeFrame h
  obtain ⟨init, b, rfl⟩ : ∃ init b, frame = init ++ [b] := ⟨_, _, (List.dropLast_append_getLast hne).symm⟩
  rw [List.length_append, List.length_singleton] at h15 ⊢
  obtain ⟨hwf, hlt, hlast, hframe⟩ := receivedAllButOne_reader h15 s
  obtain ⟨t, hstep, htrace⟩ := step_completing (s := expectByte (some b) (receivedAllButOne init s)) hwf rfl
    (nextByteIs_expectByte _ _) hlt hlast
  refine ⟨t, b, expectFrame_concat init b s ▸ hstep, htrace.trans ?_⟩
  rw [expectByte_ind, frameBytes_expectByte, hframe, sendAnswer_expectByte, frameEvents_of_decodeFrame h]
  rfl

theorem decoded_eq_some_iff {r : Except DecodeReject (Instr × List Byte)} {i : Instr} :
    decoded r = some i ↔ ∃ rest, r = .ok (i, rest) := by
  constructor
  · intro h
    match r with
    | .ok (j, rest) => cases h; exact ⟨rest, rfl⟩
    | .error _ => cases h
  · rintro ⟨rest, rfl⟩; rfl

@[simp] theorem rowFrame_length (w : Nat) : (rowFrame w).length = (lengthOf (rowHeader w)).toNat := by
  unfold rowFrame
  split <;> simp [*]

/-- A 16-bit word that decodes is a header and a frame of its length that decodes (R42, R55). -/
theorem rowFrame_of_decodeTableWord {w : Nat} {i : Instr} (h : decodeTableWord 16 w = some i) :
    isHeader (rowHeader w) = true ∧ decodeFrame (rowFrame w) = .ok i := by
  obtain ⟨rest, hwire⟩ : ∃ rest, decodeWire (rowHeader w :: rowFrame w) = .ok (i, rest) := decoded_eq_some_iff.mp h
  obtain ⟨frame, hdecode, hbytes⟩ := exists_frame_of_decodeWire hwire
  obtain ⟨hhead, htail⟩ : headerByte (BitVec.ofNat 4 frame.length) = rowHeader w ∧ frame ++ rest = rowFrame w :=
    List.cons.inj hbytes
  obtain ⟨hlen, hheader⟩ := headerByte_spec (BitVec.ofNat 4 frame.length)
  have hrest : rest = [] := by
    have hcount := congrArg List.length htail
    rw [rowFrame_length, ← hhead, hlen, nibble_ofNat_toNat (length_of_decodeFrame hdecode).2] at hcount
    exact List.length_eq_zero_iff.mp (by simpa using hcount)
  exact ⟨hhead ▸ hheader, by rw [← htail, hrest, List.append_nil, hdecode]⟩

/-- A placed frame word is its frame, placed but for the last byte (log 11). -/
theorem withFetchWord_frame {w : Nat} (hheader : isHeader (rowHeader w) = true) (hne : rowFrame w ≠ []) (s : State) :
    s.withFetchWord 16 w = expectFrame (rowFrame w) s := by
  obtain ⟨b, tail, hframe⟩ := List.exists_cons_of_ne_nil hne
  simp only [State.withFetchWord, placeTableWord, hheader, if_true, hframe]

/-- A frame-level row's length is that of the frame it is read from (R45). -/
theorem frameLength_of_decodeFrame {frame : List Byte} {i : Instr} (h : decodeFrame frame = .ok i) :
    i.frameLength = frame.length := by
  obtain ⟨hformat, -, hspell⟩ := decodeFrame_eq_ok_iff.mp h
  cases i with
  | transmit _ _ | transmitBadLen _ | setRx _ _ | ignored _ _ | short _ _ => cases (List.cons.inj hspell).2; rfl
  | header _ | emptyFrame | discardLow _ | discardFifties _ | discardSixties _ | discardHigh _ | payload _ | noByte
  | rfPoll | rfReport _ => cases hformat

/-- A 48-bit word that decodes is a report of the value its placing makes an RF poll find (R52, log 11). -/
theorem withFetchWord_of_decodeTableWord_report {w : Nat} {i : Instr} (h : decodeTableWord 48 w = some i) (s : State) :
    ∃ v, i = .rfReport v ∧ s.withFetchWord 48 w = expectReport v s := by
  obtain ⟨rest, hreport⟩ : ∃ rest, decodeReport (rowReport w) = .ok (i, rest) := decoded_eq_some_iff.mp h
  obtain ⟨v, hi, hbytes⟩ := decodeReport_eq_ok_iff.mp hreport
  refine ⟨v, hi, ?_⟩
  simp only [reportBytes, rowReport, List.cons_append, List.cons.injEq] at hbytes
  obtain ⟨-, h0, h1, h2, h3, -⟩ := hbytes
  rw [withFetchWord_report, ← h0, ← h1, ← h2, ← h3, assembleValue_valueByte]

/-- The four widths of log 11 are the only ones that decode. -/
theorem decodeTableWord_other {nbits : Nat} (h : nbits ∉ [0, 8, 16, 48]) (w : Nat) : decodeTableWord nbits w = none := by
  unfold decodeTableWord
  split <;> simp_all

/-- Settles O54: by the width of the word. -/
theorem placedWordIsWhatRuns : Obligations.PlacedWordIsWhatRuns := by
  intro s w
  refine ⟨⟨rfl, ?_⟩, ⟨rfl, ?_⟩, fun i hword => ?_, fun i hword => ?_, fun nbits h => decodeTableWord_other h w⟩
  · have hn := nextByteIs_expectByte none s
    exact ⟨_, step_of_decodeInput rfl hn rfl, .of_fields rfl rfl rfl, afterHostRead_trace_of_nextByteIs hn⟩
  · exact step_of_decodeInput rfl (nextByteIs_expectByte _ _) (decodeInput_of_eq (ensureIdle_idle s) _)
  · obtain ⟨hheader, hdecode⟩ := rowFrame_of_decodeTableWord hword
    rw [withFetchWord_frame hheader (length_of_decodeFrame hdecode).1, frameLength_of_decodeFrame hdecode]
    exact step_expectFrame hdecode s
  · obtain ⟨v, hi, hplaced⟩ := withFetchWord_of_decodeTableWord_report hword s
    obtain ⟨t, hstep, hind, hlen, hbuf, -, htrace⟩ := step_expectReport v s
    exact ⟨v, t, hi, hplaced ▸ hstep, .of_fields hind hlen hbuf, htrace⟩

end Sys2Proof.Machine
end

section
/-!
PROOFS. The frame reader (spec/40_frame_reader.md R59 to R71): what a step makes of a byte, the events it adds, the control
transitions, and the runs that feed the reader, alone and among RF polls.
-/

namespace Sys2Proof.Machine

/-! ### A byte as a function of the state -/

/-- R65 before its test: store the byte at the cursor and advance. -/
def storeAtCursor (b : Byte) (s : State) : State :=
  (s.withBuf (Memory.store s.buf s.ind.toNat b)).withInd (s.ind + 1)

section
variable (b : Byte) (s : State)

@[simp] theorem storeAtCursor_ind : (storeAtCursor b s).ind = s.ind + 1 := rfl
@[simp] theorem storeAtCursor_len : (storeAtCursor b s).len = s.len := rfl
@[simp] theorem storeAtCursor_buf : (storeAtCursor b s).buf = Memory.store s.buf s.ind.toNat b := rfl
@[simp] theorem storeAtCursor_trace : (storeAtCursor b s).trace = s.trace := rfl
@[simp] theorem storeAtCursor_loop : (storeAtCursor b s).loop = s.loop := rfl
@[simp] theorem storeAtCursor_env : (storeAtCursor b s).env = s.env := rfl

end

/-- What the reader does with a byte once its `HostRead` is in the trace: R59's choice among R63, R64 and R65 with R66. -/
def receive (b : Byte) (s : State) : State :=
  if s.ind < s.len then
    if s.ind + 1 = s.len then complete (storeAtCursor b s) else storeAtCursor b s
  else if isHeader b then openFrame (lengthOf b) s else dropInput (.hdrOutOfRange b) s

section
variable {s : State} {b : Byte}

theorem receive_completing (hi : s.ind < s.len) (hlast : s.ind + 1 = s.len) :
    receive b s = complete (storeAtCursor b s) :=
  (if_pos hi).trans (if_pos hlast)

theorem receive_storing (hi : s.ind < s.len) (hnext : s.ind + 1 ≠ s.len) : receive b s = storeAtCursor b s :=
  (if_pos hi).trans (if_neg hnext)

theorem receive_header (hidle : s.ind = s.len) (hb : isHeader b = true) : receive b s = openFrame (lengthOf b) s :=
  (if_neg (hidle ▸ BitVec.lt_irrefl s.len)).trans (if_pos hb)

theorem receive_discard (hidle : s.ind = s.len) (hb : isHeader b = false) :
    receive b s = dropInput (.hdrOutOfRange b) s :=
  (if_neg (hidle ▸ BitVec.lt_irrefl s.len)).trans (if_neg (by simp [hb]))

/-- In a state that R9 admits, the row a byte decodes to does what `receive` says (R53, R59). -/
theorem exec_receive (hle : s.ind ≤ s.len) (b : Byte) :
    ∃ i, decodeInput s.ind s.len (some b) = .ok i ∧ exec i s = .next (receive b s) := by
  by_cases hi : s.ind < s.len
  · exact ⟨.payload b, decodeInput_of_lt hi b, (execPayload_eq (cursor_lt_fifteen hi)).trans (congrArg _ (if_pos hi).symm)⟩
  · have hidle : s.ind = s.len := BitVec.le_antisymm hle (BitVec.not_lt.mp hi)
    refine ⟨decodeIdleByte b, decodeInput_of_eq hidle b, ?_⟩
    rcases exec_decodeIdleByte b s with ⟨hb, hx⟩ | ⟨hb, hx⟩
    · rw [hx, receive_header hidle hb]
    · rw [hx, receive_discard hidle hb]

/-- A byte step that receives a byte takes the `HostRead`'s answer, then does what `receive` says (R59). -/
theorem step_receive (hl : s.loop = .polling) (hle : s.ind ≤ s.len) (hn : NextByteIs s (some b)) :
    step s = .next (receive b (afterHostRead s)) := by
  obtain ⟨i, hdecode, hexec⟩ := exec_receive (s := afterHostRead s) hle b
  exact (step_of_decodeInput hl hn hdecode).trans hexec

/-- A byte step that receives no byte takes the `HostRead`'s answer, and nothing else (R62). -/
theorem step_noByte (hl : s.loop = .polling) (hn : NextByteIs s none) : step s = .next (afterHostRead s) :=
  step_of_decodeInput hl hn rfl

/-- A step whose kind is an RF poll is `exec` of RF_POLL (R88). -/
theorem step_rfPoll (hl : s.loop = .polling) (hk : (takeStepKind s).1 = .rfPoll) :
    step s = exec .rfPoll (takeStepKind s).2 := by
  simp only [step, hl, fetch, hk]

/-- Inside an `RfSend` that does not return, a step changes nothing (I7). -/
theorem step_sendPending (hl : s.loop = .sendPending) : step s = .next s := by
  simp only [step, hl]

end

/-- Settles O10: an RF poll has nothing to decode; a byte step runs its answer's row. -/
theorem stepRunsTheDecodedInstruction : Obligations.StepRunsTheDecodedInstruction :=
  fun _ hl => ⟨step_rfPoll hl, fun _ _ hn hd => step_of_decodeInput hl hn hd⟩

/-- Settles O21: the step only takes the answer. -/
theorem noByteChangesNothing : Obligations.NoByteChangesNothing :=
  fun _ => ⟨rfl, fun hl hn =>
    ⟨_, step_noByte hl hn, .of_fields rfl rfl rfl, hl, afterHostRead_trace_of_nextByteIs hn⟩⟩

/-- A byte below 64 or from 80 on is no header (R54). -/
theorem isHeader_eq_false {b : Byte} (h : b.toNat < 64 ∨ 80 ≤ b.toNat) : isHeader b = false :=
  Bool.eq_false_iff.mpr fun hb => by have := (isHeader_iff_range b).mp hb; omega

/-- Settles O23: each row is the drop, and a byte outside the header range runs one of them. -/
theorem discardChangesNothing : Obligations.DiscardChangesNothing := by
  intro s
  refine ⟨fun _ => rfl, fun _ => rfl, fun _ => rfl, fun _ => rfl, fun b hl hidle hrange hn => ?_⟩
  have hstep := step_receive hl (BitVec.le_of_eq hidle) hn
  rw [receive_discard (s := afterHostRead s) hidle (isHeader_eq_false hrange)] at hstep
  refine ⟨_, hstep, .of_fields rfl rfl rfl, hl, ?_⟩
  rw [dropInput_trace, afterHostRead_trace_of_nextByteIs hn, List.append_assoc]; rfl

/-- Settles O24: the stored buffer is the memory that the statement asks for. -/
theorem payloadStoresAndAdvances : Obligations.PayloadStoresAndAdvances :=
  fun s b hw hi => ⟨Memory.store s.buf s.ind.toNat b, Memory.byteAt_store_same hw,
    fun _ ha => Memory.byteAt_store_other ha, cursor_succ hi, execPayload_eq (cursor_lt_fifteen hi)⟩

/-! ### What a step's events hold -/

/-- The events between two states of which one's trace extends the other's. -/
theorem newEvents_of_append {s t : State} {es : List Event} (h : t.trace = s.trace ++ es) : newEvents s t = es := by
  rw [newEvents, h, List.drop_left]

/-- A row's events hold no byte, no dispatch observation, and at most one drop (R94, R97). -/
theorem actionEvents_counts (i : Instr) (returns : Bool) :
    bytesReceived (actionEvents i returns) = [] ∧ dispatches (actionEvents i returns) = [] ∧
      (drops (actionEvents i returns)).length ≤ 1 := by
  cases i with
  | transmit value bits => cases returns <;> exact ⟨rfl, rfl, Nat.zero_le 1⟩
  | setRx flag padding => simp only [actionEvents]; split <;> exact ⟨rfl, rfl, Nat.zero_le 1⟩
  | transmitBadLen _ | ignored _ _ | short _ _ => exact ⟨rfl, rfl, Nat.le_refl 1⟩
  | header _ | emptyFrame | discardLow _ | discardFifties _ | discardSixties _ | discardHigh _ | payload _ | noByte
  | rfPoll | rfReport _ => exact ⟨rfl, rfl, Nat.zero_le 1⟩

/-- So do the events of a completed frame. -/
theorem frameEvents_counts (frame : List Byte) (returns : Bool) :
    bytesReceived (frameEvents frame returns) = [] ∧ dispatches (frameEvents frame returns) = [] ∧
      (drops (frameEvents frame returns)).length ≤ 1 := by
  unfold frameEvents
  split
  · exact actionEvents_counts _ _
  · exact ⟨rfl, rfl, Nat.zero_le 1⟩

/-- Every rule's sequence of events holds at most one byte, one dispatch observation and one drop (R61, R97). -/
theorem StepEvents.counts {es : List Event} (h : StepEvents es) :
    (bytesReceived es).length ≤ 1 ∧ (dispatches es).length ≤ 1 ∧ (drops es).length ≤ 1 := by
  cases h with
  | completed b frame returns =>
    obtain ⟨hbytes, hdispatches, hdrops⟩ := frameEvents_counts frame returns
    simpa [bytesReceived, dispatches, drops, hbytes, hdispatches] using hdrops
  | noByte | taken _ | discarded _ _ | polledNothing | reported _ => simp [bytesReceived, dispatches, drops]

/-- Settles O20: a step adds nothing, or one rule's sequence. -/
theorem oneByteOneDispatchOneDropAtMost : Obligations.OneByteOneDispatchOneDropAtMost := by
  intro s t hinv hstep
  rcases step_appends_block hinv hstep with rfl | ⟨es, hes, hrule⟩
  · rw [newEvents_of_append (List.append_nil _).symm]
    exact ⟨Nat.zero_le 1, Nat.zero_le 1, Nat.zero_le 1⟩
  · rw [newEvents_of_append hes]
    exact hrule.counts

/-- Settles O26: the byte is stored like any other; where it is the last, the one dispatch is of the bytes with it. -/
theorem headerByteInsideAFrameIsData : Obligations.HeaderByteInsideAFrameIsData := by
  intro s b hw hl hi _ hn
  by_cases hlast : s.ind + 1 = s.len
  · obtain ⟨t, hstep, htrace⟩ := step_completing hw hl hn hi hlast
    refine ⟨t, hstep, fun hlt => absurd hlt (hlast ▸ BitVec.lt_irrefl s.len), fun _ => ?_⟩
    rw [List.append_assoc] at htrace
    obtain ⟨-, hdispatches, -⟩ := frameEvents_counts (frameBytes s s.ind ++ [b]) (sendAnswer s)
    rw [newEvents_of_append htrace]
    simp [dispatches, hdispatches]
  · have hstep := step_receive hl (BitVec.le_of_lt hi) hn
    rw [receive_storing (s := afterHostRead s) hi hlast] at hstep
    exact ⟨_, hstep, fun _ => ⟨rfl, rfl, Memory.byteAt_store_same hw, fun _ ha => Memory.byteAt_store_other ha,
      afterHostRead_trace_of_nextByteIs hn⟩, fun h => absurd h hlast⟩

/-! ### The reader's control state (R10, R67) -/

theorem readerMode_idle {s : State} (h : s.ind = s.len) : readerMode s = some .idle := if_pos h

theorem readerMode_accumulating {s : State} (h : s.ind < s.len) : readerMode s = some .accumulating :=
  (if_neg (BitVec.ne_of_lt h)).trans (if_pos h)

/-- A cursor below the length reaches it when it advances, or stays below it. -/
theorem cursor_succ_ne_iff {ind len : Nibble} (h : ind < len) : ind + 1 ≠ len ↔ ind.toNat + 1 < len.toNat := by
  have hlt := BitVec.lt_def.mp h
  rw [ne_eq, ← BitVec.toNat_inj, cursor_succ h]
  omega

theorem cursor_succ_lt {ind len : Nibble} (h : ind < len) (hnext : ind + 1 ≠ len) : ind + 1 < len := by
  rw [BitVec.lt_def, cursor_succ h]
  exact (cursor_succ_ne_iff h).mp hnext

/-- A completion whose `RfSend`, if any, returns leaves the reader IDLE (R66). -/
theorem complete_idle {s : State} (hl : s.loop = .polling) (h : SendReturns s) :
    (complete s).ind = (complete s).len := by
  obtain ⟨-, done, hdone⟩ := complete_of_sendReturns hl h
  rw [hdone]; rfl

/-- The control transition a byte makes (R67). -/
theorem readerMode_receive {s : State} (hl : s.loop = .polling) (hle : s.ind ≤ s.len) (h : SendReturns s) (b : Byte) :
    readerMode (receive b s) = some
      (if s.ind < s.len then (if s.ind.toNat + 1 < s.len.toNat then .accumulating else .idle)
       else if isHeader b = true ∧ lengthOf b ≠ 0 then .accumulating else .idle) := by
  by_cases hi : s.ind < s.len
  · rw [if_pos hi]
    by_cases hlast : s.ind + 1 = s.len
    · rw [receive_completing hi hlast, if_neg (mt (cursor_succ_ne_iff hi).mpr (not_not.mpr hlast))]
      exact readerMode_idle (complete_idle hl h)
    · rw [receive_storing hi hlast, if_pos ((cursor_succ_ne_iff hi).mp hlast)]
      exact readerMode_accumulating (cursor_succ_lt hi hlast)
  · rw [if_neg hi]
    have hidle : s.ind = s.len := BitVec.le_antisymm hle (BitVec.not_lt.mp hi)
    cases hb : isHeader b with
    | false => rw [receive_discard hidle hb]; exact readerMode_idle hidle
    | true =>
      rw [receive_header hidle hb]
      by_cases hzero : lengthOf b = 0
      · rw [if_neg (by simp [hzero])]; exact readerMode_idle hzero.symm
      · rw [if_pos ⟨rfl, hzero⟩]
        exact readerMode_accumulating (BitVec.lt_def.mpr (toNat_pos_of_ne_zero hzero))

/-- Between steps the cursor is at most the target length (R9). -/
theorem ReaderInv.ind_le_len {s : State} (h : ReaderInv s) (hl : s.loop = .polling) : s.ind ≤ s.len := by
  obtain ⟨-, hclean, -⟩ := h
  exact (hclean hl).1

/-- Settles O28: the step is `receive`, and taking its answer leaves the reader as it was. -/
theorem readerControlTransitions : Obligations.ReaderControlTransitions := by
  intro s b hinv hl hreturns hn
  have hle := hinv.ind_le_len hl
  exact ⟨_, step_receive hl hle hn, readerMode_receive (s := afterHostRead s) hl hle hreturns b⟩

end Sys2Proof.Machine
end

section
/-!
PROOFS. Runs of the frame reader (spec/40_frame_reader.md R60, R66, R68, R70, R71, R90): byte steps alone, and byte steps
among RF polls.
-/

namespace Sys2Proof.Machine

/-! ### What is listed for the steps to come -/

/-- The kinds of step and the answers to `HostRead` that are listed next (log 4, log 5). -/
def Listed (s : State) (kinds : List StepKind) (answers : List (Option Byte)) : Prop :=
  s.env.schedule.listed = kinds ∧ s.env.host.listed = answers

/-- A listed byte step gets the listed answer, and leaves both lists. -/
theorem Listed.byteStep {s : State} {kinds : List StepKind} {a : Option Byte} {answers : List (Option Byte)}
    (h : Listed s (.byteStep :: kinds) (a :: answers)) : NextByteIs s a ∧ Listed (afterHostRead s) kinds answers := by
  obtain ⟨hkinds, hanswers⟩ := h
  obtain ⟨hkind, hanswer, hafter⟩ := answersAreTakenInOrder s .byteStep kinds a answers hkinds hanswers
  refine ⟨⟨hkind, hanswer⟩, ?_⟩
  rw [afterHostRead, hafter]
  exact ⟨rfl, rfl⟩

/-- What the reader does with a byte takes no kind of step and no `HostRead` answer. -/
theorem receive_env (b : Byte) (s : State) :
    (receive b s).env.schedule = s.env.schedule ∧ (receive b s).env.host = s.env.host := by
  unfold receive
  split
  · split
    · exact complete_env (storeAtCursor b s)
    · exact ⟨rfl, rfl⟩
  · split <;> exact ⟨rfl, rfl⟩

theorem Listed.receive {s : State} {kinds : List StepKind} {answers : List (Option Byte)} (h : Listed s kinds answers)
    (b : Byte) : Listed (receive b s) kinds answers := by
  obtain ⟨hschedule, hhost⟩ := receive_env b s
  rwa [Listed, hschedule, hhost]

theorem Fed.receive {s : State} {answers : List (Option Byte)} (h : Fed s answers) (b : Byte) :
    Fed (receive b s) answers := by
  obtain ⟨hschedule, hhost⟩ := receive_env b s
  rwa [Fed, hschedule, hhost]

/-- A listed RF poll leaves the reader, the poll loop and the answers of the inbound path, and takes its kind (R84, R87). -/
theorem Listed.rfPoll {s : State} {kinds : List StepKind} {answers : List (Option Byte)} (hl : s.loop = .polling)
    (h : Listed s (.rfPoll :: kinds) answers) :
    ∃ t, step s = .next t ∧ Listed t kinds answers ∧ SameReader s t ∧ t.loop = .polling ∧
      t.env.sendReturns = s.env.sendReturns := by
  obtain ⟨hkinds, hanswers⟩ := h
  have hstep := step_rfPoll hl (congrArg Prod.fst (takeStepKind_of_listed hkinds))
  have hlisted : Listed (takeStepKind s).2 kinds answers := by
    rw [takeStepKind_of_listed hkinds]; exact ⟨rfl, hanswers⟩
  rcases execRfPoll_cases (takeStepKind s).2 with ⟨-, e⟩ | ⟨-, e⟩ <;>
    exact ⟨_, hstep.trans e, hlisted, (sameReader_of_execRfPoll e : SameReader (takeStepKind s).2 _), hl, rfl⟩

/-- A run inside an `RfSend` that does not return stands still (I7). -/
theorem run_sendPending {s : State} (hl : s.loop = .sendPending) (k : Nat) : Sys2Proof.core.run k s = .next s := by
  induction k with
  | zero => rfl
  | succ k ih => rw [run_succ (step_sendPending hl), ih]

/-- Taking a `HostRead`'s answer keeps the invariant. -/
theorem ReaderInv.afterHostRead {s : State} (h : ReaderInv s) : ReaderInv (afterHostRead s) := h.congr rfl rfl rfl rfl

/-! ### A frame's bytes one after another -/

theorem readsOf_cons (b : Byte) (bytes : List Byte) : readsOf (b :: bytes) = .hostRead (some b) :: readsOf bytes := rfl

section
variable {s : State}

/-- The trace after a frame's last byte (R65, R66). -/
theorem receive_completing_trace (hw : Memory.wf s.buf = true) (hi : s.ind < s.len) (hlast : s.ind + 1 = s.len)
    (b : Byte) :
    (receive b s).trace = s.trace ++ [.dispatch s.len (frameBytes s s.ind ++ [b])] ++
      frameEvents (frameBytes s s.ind ++ [b]) (sendAnswer s) := by
  rw [receive_completing hi hlast]
  exact complete_store_trace hw hi hlast b

/-- A frame's last byte clears the reader, where the `RfSend`, if any, returns (R66). -/
theorem receive_completing_clears (hl : s.loop = .polling) (hreturns : SendReturns s) (hi : s.ind < s.len)
    (hlast : s.ind + 1 = s.len) (b : Byte) : ∃ done, receive b s = clearReader done ∧ done.loop = .polling := by
  obtain ⟨hloop, done, hdone⟩ := complete_of_sendReturns (s := storeAtCursor b s) hl hreturns
  exact ⟨done, (receive_completing hi hlast).trans hdone, (congrArg State.loop hdone).symm.trans hloop⟩

end

/-- The bytes that a frame still needs complete it: one dispatch of the whole frame, and the cleared reader (R65, R66). -/
theorem run_completes_frame {s : State} {p : List Byte} {rest : List (Option Byte)} (hw : Memory.wf s.buf = true)
    (hl : s.loop = .polling) (hi : s.ind < s.len) (hreturns : SendReturns s)
    (hp : p.length = s.len.toNat - s.ind.toNat) (hfed : Fed s (p.map some ++ rest)) :
    ∃ done, Sys2Proof.core.run p.length s = .next (clearReader done) ∧ done.loop = .polling ∧
      Fed (clearReader done) rest ∧
      done.trace = s.trace ++ readsOf p ++ [.dispatch s.len (frameBytes s s.ind ++ p)] ++
        frameEvents (frameBytes s s.ind ++ p) true := by
  induction p generalizing s with
  | nil => rw [BitVec.lt_def] at hi; rw [List.length_nil] at hp; omega
  | cons b p ih =>
    obtain ⟨hn, -, hafter⟩ := Fed.next hfed
    have hstep := step_receive hl (BitVec.le_of_lt hi) hn
    have hfed' := hafter.receive b
    have hread := afterHostRead_trace_of_nextByteIs hn
    have hsucc := cursor_succ hi
    rw [List.length_cons] at hp ⊢
    by_cases hlast : s.ind + 1 = s.len
    · obtain rfl : p = [] := List.length_eq_zero_iff.mp (by rw [← hlast, hsucc] at hp; omega)
      obtain ⟨done, hdone, hloop⟩ := receive_completing_clears (s := afterHostRead s) hl hreturns hi hlast b
      have htrace := receive_completing_trace (s := afterHostRead s) hw hi hlast b
      rw [hread, show sendAnswer (afterHostRead s) = true from hreturns, hdone] at htrace
      rw [hdone] at hstep hfed'
      exact ⟨done, run_succ hstep, hloop, hfed', htrace⟩
    · rw [receive_storing (s := afterHostRead s) hi hlast] at hstep hfed'
      obtain ⟨done, hrun, hloop, hrest, htrace⟩ := ih (s := storeAtCursor b (afterHostRead s))
        (Memory.wf_store (cursor_lt_fifteen hi) hw) hl (cursor_succ_lt hi hlast) hreturns
        (by rw [storeAtCursor_ind, storeAtCursor_len, afterHostRead_ind, afterHostRead_len, hsucc]; omega) hfed'
      refine ⟨done, (run_succ hstep).trans hrun, hloop, hrest, htrace.trans ?_⟩
      have hframe : frameBytes (storeAtCursor b (afterHostRead s)) (s.ind + 1) = frameBytes s s.ind ++ [b] :=
        frameBytes_store hw hi rfl
      rw [storeAtCursor_ind, storeAtCursor_len, afterHostRead_ind, afterHostRead_len, hframe, storeAtCursor_trace, hread]
      simp [readsOf_cons]

/-- A header read while IDLE and exactly its bytes: one dispatch of those bytes, or none where there are none (R63, R70). -/
theorem run_header_and_bytes {s : State} {h : Byte} {p : List Byte} (hinv : ReaderInv s) (hl : s.loop = .polling)
    (hidle : s.ind = s.len) (hreturns : SendReturns s) (hheader : isHeader h = true)
    (hp : p.length = (lengthOf h).toNat) (hfed : Fed s ((h :: p).map some)) :
    ∃ t, Sys2Proof.core.run (p.length + 1) s = .next t ∧ t.ind = 0 ∧ t.len = 0 ∧ t.loop = .polling ∧
      (∀ a, Memory.byteAt t.buf a = clearedSlot) ∧
      t.trace = s.trace ++ readsOf (h :: p) ++
        (if p = [] then [] else [.dispatch (lengthOf h) p] ++ frameEvents p true) := by
  obtain ⟨hw, hclean, -⟩ := hinv
  obtain ⟨hle, hslots, hempty⟩ := hclean hl
  obtain ⟨hn, -, hrest⟩ := Fed.next hfed
  have hstep := step_receive hl hle hn
  rw [receive_header (s := afterHostRead s) hidle hheader] at hstep
  have hread := afterHostRead_trace_of_nextByteIs hn
  cases p with
  | nil =>
    have hzero : s.ind = 0 := hidle.trans (hempty hidle)
    exact ⟨_, run_succ hstep, rfl, BitVec.eq_of_toNat_eq hp.symm, hl, fun a => hslots a (hzero ▸ Nat.zero_le a),
      hread.trans (List.append_nil _).symm⟩
  | cons b p =>
    have hopen : (0 : Nibble) < lengthOf h := BitVec.lt_def.mpr (hp ▸ Nat.succ_pos p.length)
    obtain ⟨done, hrun, hloop, -, htrace⟩ := run_completes_frame (s := openFrame (lengthOf h) (afterHostRead s))
      (rest := []) hw hl hopen hreturns hp ((List.append_nil _).symm ▸ hrest)
    refine ⟨_, (run_succ hstep).trans hrun, rfl, rfl, hloop, Memory.byteAt_nil, htrace.trans ?_⟩
    rw [openFrame_trace, hread]
    simp [readsOf_cons, frameBytes]

/-- Settles O42: feeding the bytes leaves the reader as it was. -/
theorem headerAndItsBytesGiveOneDispatch : Obligations.HeaderAndItsBytesGiveOneDispatch :=
  fun s h p hinv hl hidle hreturns hheader hp =>
    run_header_and_bytes (s := s.withBytes (h :: p)) (hinv.congr rfl rfl rfl rfl) hl hidle hreturns hheader hp
      (fed_withByteAnswers s ((h :: p).map some))

/-! ### What does not depend on the bytes' arrival (R60, R71) -/

/-- Two states that the inbound path cannot tell apart, their traces compared on the events that `p` keeps. -/
structure AgreeOn (p : Event → Bool) (s u : State) : Prop where
  ind : s.ind = u.ind
  len : s.len = u.len
  buf : s.buf = u.buf
  loop : s.loop = u.loop
  sendReturns : s.env.sendReturns = u.env.sendReturns
  trace : s.trace.filter p = u.trace.filter p

namespace AgreeOn
variable {p : Event → Bool} {s u : State}

theorem symm (h : AgreeOn p s u) : AgreeOn p u s :=
  ⟨h.ind.symm, h.len.symm, h.buf.symm, h.loop.symm, h.sendReturns.symm, h.trace.symm⟩

theorem trans {t : State} (h : AgreeOn p s t) (h' : AgreeOn p t u) : AgreeOn p s u :=
  ⟨h.ind.trans h'.ind, h.len.trans h'.len, h.buf.trans h'.buf, h.loop.trans h'.loop,
    h.sendReturns.trans h'.sendReturns, h.trace.trans h'.trace⟩

theorem emit (h : AgreeOn p s u) (e : Event) : AgreeOn p (s.emit e) (u.emit e) :=
  { h with trace := by simp [h.trace] }

theorem withLoop (h : AgreeOn p s u) (l : LoopStatus) : AgreeOn p (s.withLoop l) (u.withLoop l) :=
  { h with loop := rfl }

theorem clearReader (h : AgreeOn p s u) : AgreeOn p (clearReader s) (clearReader u) :=
  { h with ind := rfl, len := rfl, buf := rfl }

theorem openFrame (h : AgreeOn p s u) (n : Nibble) : AgreeOn p (openFrame n s) (openFrame n u) :=
  { h with ind := rfl, len := rfl }

theorem storeAtCursor (h : AgreeOn p s u) (b : Byte) : AgreeOn p (storeAtCursor b s) (storeAtCursor b u) :=
  { h with ind := congrArg (· + 1) h.ind, buf := by simp only [storeAtCursor_buf, h.ind, h.buf] }

theorem bufRead (h : AgreeOn p s u) (i : Fin 15) : bufRead s i = bufRead u i :=
  congrArg (Memory.byteAt · i) h.buf

theorem frameBytes (h : AgreeOn p s u) (n : Nibble) : frameBytes s n = frameBytes u n :=
  frameBytes_congr fun j _ => congrArg (Memory.byteAt · j) h.buf

theorem transmitAction (h : AgreeOn p s u) (value : Word) (bits : Half) :
    AgreeOn p (transmitAction value bits s) (transmitAction value bits u) := by
  have hsent : AgreeOn p (issueRfSend value bits s).2 (issueRfSend value bits u).2 :=
    { h with sendReturns := by simp only [issueRfSend, emit_env, withEnv_env, h.sendReturns]
             trace := by simp [h.trace] }
  have hanswer : (issueRfSend value bits s).1 = (issueRfSend value bits u).1 := by
    simp only [issueRfSend_returns, h.sendReturns]
  simp only [Machine.transmitAction, hanswer]
  split
  · exact hsent.emit _
  · exact hsent.withLoop _

theorem dispatch (h : AgreeOn p s u) (n : Nibble) : AgreeOn p (dispatch n s) (dispatch n u) := by
  simp only [Machine.dispatch, transmitFromBuffer, setRxFromBuffer, receiverModeAction_eq, dropInput, h.bufRead]
  split
  · exact h.emit _
  · split
    · split
      · exact h.emit _
      · exact h.transmitAction _ _
    · split <;> exact h.emit _

theorem complete (h : AgreeOn p s u) : AgreeOn p (complete s) (complete u) := by
  have hdone := (h.emit (.dispatch u.len (Machine.frameBytes u u.len))).dispatch u.len
  simp only [Machine.complete, h.len, h.frameBytes, hdone.loop]
  split
  · exact hdone.clearReader
  · exact hdone

theorem receive (h : AgreeOn p s u) (b : Byte) : AgreeOn p (receive b s) (receive b u) := by
  simp only [Machine.receive, h.ind, h.len]
  split
  · split
    · exact (h.storeAtCursor b).complete
    · exact h.storeAtCursor b
  · split
    · exact h.openFrame _
    · exact h.emit _

end AgreeOn

/-- Taking a `HostRead`'s answer changes nothing that the inbound path looks at, where `p` leaves the `HostRead`s out. -/
theorem agreeOn_afterHostRead {p : Event → Bool} (hp : ∀ a, p (.hostRead a) = false) (s : State) :
    AgreeOn p (afterHostRead s) s :=
  ⟨rfl, rfl, rfl, rfl, rfl, by simp [hp]⟩

/-- Byte steps with any answers and byte steps with the bytes among them end in states that agree but for `HostRead`s. -/
theorem run_agreeOn {p : Event → Bool} (hp : ∀ a, p (.hostRead a) = false) {s u : State} {answers : List (Option Byte)}
    (hinv : ReaderInv s) (hagree : AgreeOn p s u) (hs : Fed s answers) (hu : Fed u ((answers.filterMap id).map some)) :
    ∃ t v, Sys2Proof.core.run answers.length s = .next t ∧
      Sys2Proof.core.run (answers.filterMap id).length u = .next v ∧ AgreeOn p t v := by
  induction answers generalizing s u with
  | nil => exact ⟨s, u, rfl, rfl, hagree⟩
  | cons a answers ih =>
    cases hl : s.loop with
    | sendPending =>
      exact ⟨s, u, run_sendPending hl _, run_sendPending (hagree.loop.symm.trans hl) _, hagree⟩
    | polling =>
      obtain ⟨hn, -, hrest⟩ := hs.next
      have hreadS := agreeOn_afterHostRead hp s
      cases a with
      | none =>
        obtain ⟨t, v, ht, hv, h⟩ := ih hinv.afterHostRead (hreadS.trans hagree) hrest hu
        exact ⟨t, v, (run_succ (step_noByte hl hn)).trans ht, hv, h⟩
      | some b =>
        have hle := hinv.ind_le_len hl
        have hstepS := step_receive hl hle hn
        obtain ⟨hnU, -, hrestU⟩ := Fed.next (s := u) hu
        have hstepU := step_receive (hagree.loop.symm.trans hl) (hagree.ind ▸ hagree.len ▸ hle) hnU
        have hread := (hreadS.trans hagree).trans (agreeOn_afterHostRead hp u).symm
        obtain ⟨t, v, ht, hv, h⟩ := ih (stepKeepsTheReaderInvariant _ _ hinv hstepS) (hread.receive b)
          (hrest.receive b) (hrestU.receive b)
        exact ⟨t, v, (run_succ hstepS).trans ht, (run_succ hstepU).trans hv, h⟩

/-- Settles O45: the two runs start in states that agree, whatever is listed. -/
theorem noByteStepsMakeNoDifference : Obligations.NoByteStepsMakeNoDifference := by
  intro s answers hinv
  obtain ⟨t, u, ht, hu, h⟩ := run_agreeOn (p := fun e => !e.isHostRead) (fun _ => rfl)
    (s := s.withByteAnswers answers) (u := s.withBytes (answers.filterMap id)) (hinv.congr rfl rfl rfl rfl)
    ⟨rfl, rfl, rfl, rfl, rfl, rfl⟩ (fed_withByteAnswers s _) (fed_withByteAnswers s _)
  exact ⟨t, u, ht, hu, h.ind, h.len, h.buf, h.loop, h.trace⟩

/-- The bytes received in one trace, then in another. -/
theorem bytesReceived_append (es fs : List Event) : bytesReceived (es ++ fs) = bytesReceived es ++ bytesReceived fs := by
  induction es with
  | nil => rfl
  | cons e es ih =>
    cases e with
    | hostRead a => cases a <;> simp [bytesReceived, ih]
    | _ => simpa [bytesReceived] using ih

/-- What the reader does with a byte receives no further byte (R61). -/
theorem bytesReceived_receive {s : State} (hw : Memory.wf s.buf = true) (b : Byte) :
    bytesReceived (receive b s).trace = bytesReceived s.trace := by
  by_cases hi : s.ind < s.len
  · by_cases hlast : s.ind + 1 = s.len
    · obtain ⟨hbytes, -, -⟩ := frameEvents_counts (frameBytes s s.ind ++ [b]) (sendAnswer s)
      rw [receive_completing_trace hw hi hlast]
      simp [bytesReceived_append, bytesReceived, hbytes]
    · rw [receive_storing hi hlast, storeAtCursor_trace]
  · rw [receive, if_neg hi]
    split
    · rfl
    · simp [bytesReceived_append, bytesReceived]

/-- A run of byte steps reads its answers in order, as long as it does not end inside an `RfSend` (R60, I7). -/
theorem run_bytesReceived {s : State} {answers : List (Option Byte)} (hinv : ReaderInv s) (hl : s.loop = .polling)
    (hfed : Fed s answers) :
    ∃ t, Sys2Proof.core.run answers.length s = .next t ∧
      (t.loop = .polling → bytesReceived t.trace = bytesReceived s.trace ++ answers.filterMap id) := by
  induction answers generalizing s with
  | nil => exact ⟨s, rfl, fun _ => (List.append_nil _).symm⟩
  | cons a answers ih =>
    obtain ⟨hn, -, hrest⟩ := Fed.next hfed
    have hread := congrArg bytesReceived (afterHostRead_trace_of_nextByteIs hn)
    rw [bytesReceived_append] at hread
    cases a with
    | none =>
      obtain ⟨t, hrun, hbytes⟩ := ih hinv.afterHostRead hl hrest
      exact ⟨t, (run_succ (step_noByte hl hn)).trans hrun, fun h => by rw [hbytes h, hread]; simp [bytesReceived]⟩
    | some b =>
      have hstep := step_receive hl (hinv.ind_le_len hl) hn
      cases hloop : (receive b (afterHostRead s)).loop with
      | sendPending =>
        refine ⟨_, (run_succ hstep).trans (run_sendPending hloop _), fun h => ?_⟩
        cases hloop.symm.trans h
      | polling =>
        obtain ⟨t, hrun, hbytes⟩ := ih (stepKeepsTheReaderInvariant _ _ hinv hstep) hloop (hrest.receive b)
        refine ⟨t, (run_succ hstep).trans hrun, fun h => ?_⟩
        rw [hbytes h, bytesReceived_receive (s := afterHostRead s) hinv.1, hread]
        simp [bytesReceived]

/-- Settles O47: feeding the answers leaves the trace as it was. -/
theorem bytesAreReadInArrivalOrder : Obligations.BytesAreReadInArrivalOrder :=
  fun s answers hinv hl => run_bytesReceived (s := s.withByteAnswers answers) (hinv.congr rfl rfl rfl rfl) hl
    (fed_withByteAnswers s answers)

/-! ### Byte steps among RF polls (R68, R89, R90, R102) -/

theorem SameReader.trans {s t u : State} (h : SameReader s t) (h' : SameReader t u) : SameReader s u := by
  obtain ⟨hind, hlen, hslots⟩ := h
  obtain ⟨hind', hlen', hslots'⟩ := h'
  exact ⟨hind'.trans hind, hlen'.trans hlen, fun a => (hslots' a).trans (hslots a)⟩

/-- Steps of either kind, none of which receives a byte, leave the reader and the poll loop (R68). -/
theorem run_parked {s : State} {kinds : List StepKind} {n : Nat} (hl : s.loop = .polling)
    (h : Listed s kinds (List.replicate n none)) (hn : kinds.count .byteStep ≤ n) :
    ∃ t, Sys2Proof.core.run kinds.length s = .next t ∧ SameReader s t ∧ t.loop = .polling := by
  induction kinds generalizing s n with
  | nil => exact ⟨s, rfl, .of_fields rfl rfl rfl, hl⟩
  | cons kind kinds ih =>
    cases kind with
    | rfPoll =>
      obtain ⟨u, hstep, hrest, hreader, hloop, -⟩ := h.rfPoll hl
      obtain ⟨t, hrun, hsame, htl⟩ := ih hloop hrest (by simpa using hn)
      exact ⟨t, (run_succ hstep).trans hrun, hreader.trans hsame, htl⟩
    | byteStep =>
      rw [List.count_cons_self] at hn
      obtain ⟨m, rfl⟩ : ∃ m, n = m + 1 := ⟨n - 1, by omega⟩
      obtain ⟨hnone, hrest⟩ := h.byteStep
      obtain ⟨t, hrun, hsame, htl⟩ := ih (s := afterHostRead s) hl hrest (Nat.le_of_succ_le_succ hn)
      exact ⟨t, (run_succ (step_noByte hl hnone)).trans hrun, hsame, htl⟩

/-- Settles O48: inside an `RfSend` nothing moves at all; in the poll loop no step receives a byte. -/
theorem parkedReaderHasNoTimeout : Obligations.ParkedReaderHasNoTimeout := by
  intro s kinds n _ hhost hcount
  cases hl : s.loop with
  | sendPending => exact ⟨_, run_sendPending (s := s.withSchedule kinds) hl _, .of_fields rfl rfl rfl, hl⟩
  | polling => exact run_parked (s := s.withSchedule kinds) hl ⟨rfl, hhost⟩ hcount

/-- Under any order of steps, the bytes a frame still needs bring the reader to IDLE within the run (R68). -/
theorem run_reaches_idle {s : State} {kinds : List StepKind} {bytes : List Byte} (hinv : ReaderInv s)
    (hl : s.loop = .polling) (hreturns : SendReturns s) (h : Listed s kinds (bytes.map some))
    (hbytes : kinds.count .byteStep ≤ bytes.length) (hneed : s.len.toNat - s.ind.toNat ≤ kinds.count .byteStep) :
    ∃ k t, k ≤ kinds.length ∧ Sys2Proof.core.run k s = .next t ∧ t.loop = .polling ∧ readerMode t = some .idle := by
  induction kinds generalizing s bytes with
  | nil =>
    have hle := hinv.ind_le_len hl
    rw [List.count_nil] at hneed
    refine ⟨0, s, Nat.zero_le _, rfl, hl, readerMode_idle (BitVec.le_antisymm hle (BitVec.le_def.mpr ?_))⟩
    omega
  | cons kind kinds ih =>
    by_cases hidle : s.ind = s.len
    · exact ⟨0, s, Nat.zero_le _, rfl, hl, readerMode_idle hidle⟩
    have hle := hinv.ind_le_len hl
    have hi : s.ind < s.len := BitVec.not_le.mp fun h => hidle (BitVec.le_antisymm hle h)
    cases kind with
    | rfPoll =>
      obtain ⟨u, hstep, hrest, ⟨hind, hlen, -⟩, hloop, hsends⟩ := h.rfPoll hl
      obtain ⟨k, t, hk, hrun, htl⟩ := ih (stepKeepsTheReaderInvariant s u hinv hstep) hloop
        (by rwa [SendReturns, hsends]) hrest (by simpa using hbytes) (by rw [hind, hlen]; simpa using hneed)
      exact ⟨k + 1, t, Nat.succ_le_succ hk, (run_succ hstep).trans hrun, htl⟩
    | byteStep =>
      rw [List.count_cons_self] at hbytes hneed
      obtain ⟨b, bytes, rfl⟩ := List.exists_cons_of_length_pos (Nat.lt_of_lt_of_le (Nat.succ_pos _) hbytes)
      obtain ⟨hn, hrest⟩ := h.byteStep
      have hstep := step_receive hl hle hn
      by_cases hlast : s.ind + 1 = s.len
      · obtain ⟨done, hdone, hloop⟩ := receive_completing_clears (s := afterHostRead s) hl hreturns hi hlast b
        rw [hdone] at hstep
        exact ⟨1, _, Nat.succ_le_succ (Nat.zero_le _), run_succ hstep, hloop, readerMode_idle rfl⟩
      · have hinv' := stepKeepsTheReaderInvariant _ _ hinv hstep
        have hrest' := hrest.receive b
        rw [receive_storing (s := afterHostRead s) hi hlast] at hstep hinv' hrest'
        have hsucc : (storeAtCursor b (afterHostRead s)).ind.toNat = s.ind.toNat + 1 := cursor_succ hi
        obtain ⟨k, t, hk, hrun, htl⟩ := ih hinv' hl hreturns hrest' (Nat.le_of_succ_le_succ hbytes)
          (by rw [hsucc, storeAtCursor_len, afterHostRead_len]; omega)
        exact ⟨k + 1, t, Nat.succ_le_succ hk, (run_succ hstep).trans hrun, htl⟩

/-- Settles O49: the order of steps is what is listed. -/
theorem enoughBytesReachIdle : Obligations.EnoughBytesReachIdle :=
  fun s kinds _ hinv hl hreturns hhost hbytes hneed =>
    run_reaches_idle (s := s.withSchedule kinds) (hinv.congr rfl rfl rfl rfl) hl hreturns ⟨rfl, hhost⟩ hbytes hneed

/-- The byte steps among the first `n` of an infinite order, counted. -/
theorem count_firstSteps (kinds : Nat → StepKind) (n : Nat) :
    (firstSteps kinds n).count .byteStep = Nat.count (fun i => kinds i = .byteStep) n := by
  rw [firstSteps, List.count_eq_countP, List.countP_map, Nat.count]
  rfl

/-- A weakly fair order has, from its start, any number of byte steps (R90). -/
theorem WeaklyFair.exists_count {kinds : Nat → StepKind} (h : WeaklyFair kinds) (m : Nat) :
    ∃ n, (firstSteps kinds n).count .byteStep = m := by
  have hinfinite : {i | kinds i = .byteStep}.Infinite := Set.infinite_of_forall_exists_gt fun n => by
    obtain ⟨⟨j, hj, hbyte⟩, -⟩ := h (n + 1)
    exact ⟨j, hbyte, hj⟩
  exact ⟨_, (count_firstSteps kinds _).trans (Nat.count_nth_of_infinite hinfinite m)⟩

/-- Settles O50: the first steps of a fair order hold as many byte steps as the frame needs. -/
theorem fairSchedulesReachIdle : Obligations.FairSchedulesReachIdle := by
  intro s kinds bytes hinv hl hreturns hfair hhost hbytes
  obtain ⟨n, hn⟩ := hfair.exists_count (s.len.toNat - s.ind.toNat)
  obtain ⟨k, t, hk, hrun⟩ := enoughBytesReachIdle s (firstSteps kinds n) bytes hinv hl hreturns hhost
    (hn ▸ hbytes) hn.ge
  exact ⟨n, k, t, by simpa [firstSteps] using hk, hrun⟩

end Sys2Proof.Machine
end

section
/-!
PROOFS. The dispatcher (spec/41_dispatcher.md R72 to R81): what each row does, the one action or none of a dispatch, the reset
after every `RfSend`, who writes to the host, and what the receiver's contract (spec/60_exceptions.md R103) gives for its two
actions.
-/

namespace Sys2Proof.Machine

/-! ### The rows of a dispatch -/

section
variable {n : Nibble} {s : State}

/-- The length is tested first (R72, R73). -/
theorem dispatch_short (hshort : n.toNat < 3) : dispatch n s = dropInput (.shortFrame n) s := if_pos hshort

/-- Opcode 1 at a length where the opcode counts (R74). -/
theorem dispatch_opcodeOne (h3 : 3 ≤ n.toNat) (hop : bufRead s 0 = 0x01#8) : dispatch n s = transmitFromBuffer n s :=
  (if_neg (Nat.not_lt.mpr h3)).trans (if_pos hop)

/-- Opcode 2 (R76). -/
theorem dispatch_opcodeTwo (h3 : 3 ≤ n.toNat) (hop : bufRead s 0 = 0x02#8) : dispatch n s = setRxFromBuffer s :=
  (if_neg (Nat.not_lt.mpr h3)).trans ((if_neg (by rw [hop]; decide)).trans (if_pos hop))

/-- Every other opcode (R78). -/
theorem dispatch_unknownOpcode (h3 : 3 ≤ n.toNat) (hone : bufRead s 0 ≠ 0x01#8) (htwo : bufRead s 0 ≠ 0x02#8) :
    dispatch n s = dropInput (.unknownOpcode (bufRead s 0)) s :=
  (if_neg (Nat.not_lt.mpr h3)).trans ((if_neg hone).trans (if_neg htwo))

/-- Opcode 1 acts at length 7 only (R74). -/
theorem transmitFromBuffer_badLength (h7 : n.toNat ≠ 7) : transmitFromBuffer n s = dropInput (.transmitBadLength n) s :=
  if_pos h7

/-- At length 7 it is the Transmit Action on the assembled operands (R48, R49, R74). -/
theorem transmitFromBuffer_seven (h7 : n.toNat = 7) :
    transmitFromBuffer n s = transmitAction (bufRead s 1 ++ bufRead s 2 ++ bufRead s 3 ++ bufRead s 4)
      (bufRead s 5 ++ bufRead s 6) s :=
  if_neg (not_not.mpr h7)

end

/-- The Transmit Action whose `RfSend` returns, as a whole state (R74, R104). -/
theorem transmitAction_eq_of_sendReturns {s : State} (h : SendReturns s) (value : Word) (bits : Half) :
    transmitAction value bits s =
      { s with trace := s.trace ++ [.rfSend value bits, .rfResetAvailable]
               env := { s.env with sendReturns := (s.env.sendReturns.take Config.freeSendReturns).2 } } := by
  rw [transmitAction_of_sendReturns h]
  exact State.eq_of_fields rfl rfl rfl (List.append_assoc s.trace [_] [_]) rfl rfl

/-- The Receiver-Mode Action by its flag byte (R50, R76). -/
theorem receiverModeAction_flagOn (flag : Byte) (s : State) :
    receiverModeAction (flagOn flag) s = s.emit (if flag = 0x00#8 then .rfDisable else .rfEnable) := by
  rw [receiverModeAction_eq, flagOn_eq]
  by_cases h : flag = 0x00#8 <;> simp [h]

/-- A dispatch takes one of the two actions, or none and records a drop (R79, R97). -/
theorem dispatch_outcome (n : Nibble) (s : State) :
    (∃ reason, dispatch n s = dropInput reason s) ∨ (∃ value bits, dispatch n s = transmitAction value bits s) ∨
      ∃ on, dispatch n s = receiverModeAction on s := by
  rcases dispatch_cases n s with ⟨-, e⟩ | ⟨-, -, -, e⟩ | ⟨-, -, e⟩ | ⟨-, -, e⟩ | ⟨-, -, -, e⟩
  · exact .inl ⟨_, e⟩
  · exact .inl ⟨_, e⟩
  · exact .inr (.inl ⟨_, _, e⟩)
  · exact .inr (.inr ⟨_, e⟩)
  · exact .inl ⟨_, e⟩

/-- The events of an RF poll that finds a value (R84). -/
theorem reported_trace {s : State} (ha : (askRfIsAvailable s).1 = true) :
    ∃ v, ((writeReport (askRfGetValue (askRfIsAvailable s).2).1 (askRfGetValue (askRfIsAvailable s).2).2).emit
      .rfResetAvailable).trace =
        s.trace ++ [.rfIsAvailable true, .rfGetValue v, .hostWrite (reportBytes v), .rfResetAvailable] :=
  ⟨(askRfGetValue (askRfIsAvailable s).2).1, by simp [ha]⟩

/-! ### Every `RfSend` is followed by `RfResetAvailable` -/

/-- Nothing is asked after an event that is no `RfSend`. -/
theorem sendsAreCleared_cons {pendingAtEnd : Bool} {e : Event} {rest : List Event}
    (he : ∀ value bits, e ≠ .rfSend value bits) :
    sendsAreCleared pendingAtEnd (e :: rest) = sendsAreCleared pendingAtEnd rest := by
  cases e with
  | rfSend value bits => exact absurd rfl (he value bits)
  | _ => rfl

/-- After a trace in which every `RfSend` is cleared, only the events that follow are still to be looked at. -/
theorem sendsAreCleared_append {tr : List Event} (h : sendsAreCleared false tr = true) (pendingAtEnd : Bool)
    (es : List Event) : sendsAreCleared pendingAtEnd (tr ++ es) = sendsAreCleared pendingAtEnd es := by
  induction tr using sendsAreCleared.induct with
  | case1 => rfl
  | case2 => cases h
  | case3 value bits rest ih => exact ih h
  | case4 value bits rest hlast hcleared =>
    rw [sendsAreCleared] at h
    · cases h
    · exact hlast
    · exact hcleared
  | case5 e rest _ _ hsend ih =>
    rw [sendsAreCleared_cons hsend] at h
    exact (sendsAreCleared_cons hsend).trans (ih h)

/-- Every `RfSend` in the trace is cleared at once, but for the one that the loop is still inside (R75, log 6). -/
def SendsCleared (s : State) : Prop := sendsAreCleared (decide (s.loop = .sendPending)) s.trace = true

/-- Between steps, the trace stays so if the events that are added are so. -/
theorem SendsCleared.append {s t : State} {es : List Event} (h : SendsCleared s) (hl : s.loop = .polling)
    (htrace : t.trace = s.trace ++ es) (hes : sendsAreCleared (decide (t.loop = .sendPending)) es = true) :
    SendsCleared t := by
  rw [SendsCleared, hl] at h
  rw [SendsCleared, htrace, sendsAreCleared_append h]
  exact hes

/-- The Transmit Action resets the receiver after its `RfSend`, or is still inside it (R74, I7). -/
theorem SendsCleared.transmitAction {s : State} (h : SendsCleared s) (hl : s.loop = .polling) (value : Word)
    (bits : Half) : SendsCleared (transmitAction value bits s) := by
  rcases transmitAction_cases value bits s with ⟨-, e⟩ | ⟨-, e⟩ <;> rw [e]
  · exact h.append hl (List.append_assoc s.trace [_] [_]) rfl
  · exact h.append hl rfl rfl

theorem SendsCleared.dispatch {s : State} (h : SendsCleared s) (hl : s.loop = .polling) (n : Nibble) :
    SendsCleared (dispatch n s) := by
  rcases dispatch_outcome n s with ⟨reason, e⟩ | ⟨value, bits, e⟩ | ⟨on, e⟩ <;> rw [e]
  · exact h.append hl rfl rfl
  · exact h.transmitAction hl value bits
  · cases on <;> exact h.append hl rfl rfl

theorem SendsCleared.complete {s : State} (h : SendsCleared s) (hl : s.loop = .polling) : SendsCleared (complete s) := by
  have hdispatch := (h.append (t := s.emit (.dispatch s.len (frameBytes s s.len))) hl rfl rfl).dispatch hl s.len
  rcases complete_cases s with ⟨-, e⟩ | ⟨-, e⟩ <;> rw [e] <;> exact hdispatch

/-- Everything a step can do keeps every `RfSend` cleared: only a completion adds one. -/
theorem StepResult.sendsCleared {s t : State} (h : SendsCleared s) (r : StepResult s t) : SendsCleared t := by
  cases r with
  | held => exact h
  | polledNothing hl => exact h.append hl rfl rfl
  | reported hl _ ha =>
    obtain ⟨v, htrace⟩ := reported_trace ha
    exact h.append hl htrace rfl
  | noByte hl => exact h.append hl rfl rfl
  | opened hl => exact h.append hl rfl rfl
  | discarded hl => exact h.append hl (List.append_assoc s.trace [_] [_]) rfl
  | stored hl => exact h.append hl rfl rfl
  | completed hl => exact (h.append hl rfl rfl).complete hl

/-- Settles O36: by everything a step can do. -/
theorem everySendIsClearedAtOnce : Obligations.EverySendIsClearedAtOnce :=
  fun _ _ hcleared hstep => (step_cases hstep).sendsCleared hcleared

/-! ### The rows' effects -/

/-- Settles O17: the action ends inside its `RfSend`, and a run from there stands still. -/
theorem unreturnedSendHoldsTheBlock : Obligations.UnreturnedSendHoldsTheBlock :=
  ⟨fun _ _ _ hheld => congrArg Host.Outcome.next (if_neg hheld), fun k _ hl => run_sendPending hl k⟩

/-- Settles O31: the Transmit Action on the given operands, or on those in the buffer. -/
theorem transmitSendsThenClears : Obligations.TransmitSendsThenClears := by
  intro s
  refine ⟨fun value bits h => congrArg _ (transmitAction_eq_of_sendReturns h value bits), fun _ => rfl,
    fun n h3 hop => ⟨fun h7 => ?_, fun h7 h => ?_⟩⟩ <;> rw [dispatch_opcodeOne h3 hop]
  · exact transmitFromBuffer_badLength h7
  · rw [transmitFromBuffer_seven h7]
    exact transmitAction_eq_of_sendReturns h _ _

/-- Settles O30: length 1 and length 2 are below the least length of a dispatch. -/
theorem shortFrameIsDropped : Obligations.ShortFrameIsDropped := by
  refine fun s => ⟨fun _ _ => rfl, fun n hn => dispatch_short ?_⟩
  rcases hn with rfl | rfl <;> decide

/-- Settles O32: the Receiver-Mode Action on the given flag, or on that in the buffer. -/
theorem setRxCallsExactlyOne : Obligations.SetRxCallsExactlyOne :=
  fun s => ⟨fun flag _ => congrArg _ (receiverModeAction_flagOn flag s), fun _ h3 hop =>
    (dispatch_opcodeTwo h3 hop).trans (receiverModeAction_flagOn (bufRead s 1) s)⟩

/-- Settles O33: an opcode other than 1 and 2 is dropped. -/
theorem ignoredOpcodeIsDropped : Obligations.IgnoredOpcodeIsDropped :=
  fun _ => ⟨fun _ _ => rfl, fun _ => dispatch_unknownOpcode⟩

/-! ### One action or none -/

theorem portTrace_append (tr es : List Event) : portTrace (tr ++ es) = portTrace tr ++ portTrace es :=
  List.filter_append tr es

/-- Settles O34: by the action that the dispatch takes. -/
theorem dispatchTakesOneActionOrNone : Obligations.DispatchTakesOneActionOrNone := by
  intro s n
  obtain ⟨hind, hlen, hbuf⟩ := dispatch_reader n s
  refine ⟨.of_fields hind hlen hbuf, fun h => ⟨dispatch_loop_of_sendReturns h n, ?_⟩⟩
  rcases dispatch_outcome n s with ⟨reason, e⟩ | ⟨value, bits, e⟩ | ⟨on, e⟩ <;> rw [e]
  · exact ⟨_, portTrace_append _ _, .inr (.inr (.inr rfl))⟩
  · rw [transmitAction_eq_of_sendReturns h]
    exact ⟨_, portTrace_append _ _, .inl ⟨value, bits, rfl⟩⟩
  · cases on
    · exact ⟨_, portTrace_append _ _, .inr (.inr (.inl rfl))⟩
    · exact ⟨_, portTrace_append _ _, .inr (.inl rfl)⟩

/-! ### Who writes to the host -/

/-- The second state's trace goes on from the first's with no `HostWrite`. -/
def AppendsNoHostWrite (s t : State) : Prop := ∃ es, t.trace = s.trace ++ es ∧ ∀ bytes, .hostWrite bytes ∉ es

theorem AppendsNoHostWrite.trans {s t u : State} (h : AppendsNoHostWrite s t) (h' : AppendsNoHostWrite t u) :
    AppendsNoHostWrite s u := by
  obtain ⟨es, htrace, hes⟩ := h
  obtain ⟨fs, htrace', hfs⟩ := h'
  refine ⟨es ++ fs, by rw [htrace', htrace, List.append_assoc], fun bytes hmem => ?_⟩
  exact (List.mem_append.mp hmem).elim (hes bytes) (hfs bytes)

/-- Neither an action nor a drop writes to the host (R81). -/
theorem dispatch_appendsNoHostWrite (n : Nibble) (s : State) : AppendsNoHostWrite s (dispatch n s) := by
  rcases dispatch_outcome n s with ⟨reason, e⟩ | ⟨value, bits, e⟩ | ⟨on, e⟩ <;> rw [e]
  · exact ⟨_, rfl, by simp⟩
  · refine ⟨_, transmitAction_trace value bits s, fun bytes => ?_⟩
    cases sendAnswer s <;> simp [actionEvents]
  · cases on <;> exact ⟨_, rfl, by simp⟩

theorem complete_appendsNoHostWrite (s : State) : AppendsNoHostWrite s (complete s) := by
  have hobserved : AppendsNoHostWrite s (s.emit (.dispatch s.len (frameBytes s s.len))) := ⟨_, rfl, by simp⟩
  have hdispatch := hobserved.trans (dispatch_appendsNoHostWrite s.len _)
  rcases complete_cases s with ⟨-, e⟩ | ⟨-, e⟩ <;> rw [e] <;> exact hdispatch

/-- A `HostRead` is no `HostWrite`. -/
theorem afterHostRead_appendsNoHostWrite (s : State) : AppendsNoHostWrite s (afterHostRead s) := ⟨_, rfl, by simp⟩

/-- A step adds no `HostWrite`, or it is an RF poll that reports a value (R81, R84). -/
theorem StepResult.hostWrites {s t : State} (r : StepResult s t) :
    AppendsNoHostWrite s t ∨ (takeStepKind s).1 = .rfPoll ∧
      ∃ v, t.trace = s.trace ++ [.rfIsAvailable true, .rfGetValue v, .hostWrite (reportBytes v), .rfResetAvailable] := by
  have hread := afterHostRead_appendsNoHostWrite s
  cases r with
  | held => exact .inl ⟨[], (List.append_nil _).symm, by simp⟩
  | polledNothing => exact .inl ⟨_, rfl, by simp⟩
  | reported _ hkind ha => exact .inr ⟨hkind, reported_trace ha⟩
  | noByte | opened | stored => exact .inl hread
  | discarded => exact .inl (hread.trans ⟨_, rfl, by simp⟩)
  | completed => exact .inl (hread.trans (complete_appendsNoHostWrite _))

theorem bytesWritten_append (es fs : List Event) : bytesWritten (es ++ fs) = bytesWritten es ++ bytesWritten fs := by
  induction es with
  | nil => rfl
  | cons e es ih =>
    cases e with
    | hostWrite bytes => simp [bytesWritten, ih]
    | _ => simpa [bytesWritten] using ih

/-- Events without a `HostWrite` write no byte. -/
theorem bytesWritten_eq_nil {es : List Event} (h : ∀ bytes, .hostWrite bytes ∉ es) : bytesWritten es = [] := by
  induction es with
  | nil => rfl
  | cons e es ih =>
    have hrest := ih fun bytes hmem => h bytes (List.mem_cons_of_mem e hmem)
    cases e with
    | hostWrite bytes => exact absurd List.mem_cons_self (h bytes)
    | _ => exact hrest

/-- Settles O35: a dispatch adds no `HostWrite`, and by everything a step can do. -/
theorem onlyRfPollWritesToTheHost : Obligations.OnlyRfPollWritesToTheHost := by
  refine ⟨fun s n => ?_, fun s t hstep bytes hmem => ?_⟩
  · obtain ⟨es, htrace, hes⟩ := dispatch_appendsNoHostWrite n s
    rw [htrace, bytesWritten_append, bytesWritten_eq_nil hes, List.append_nil]
  · rcases (step_cases hstep).hostWrites with ⟨es, htrace, hes⟩ | ⟨hkind, v, htrace⟩ <;>
      rw [newEvents_of_append htrace] at hmem
    · exact absurd hmem (hes bytes)
    · exact ⟨hkind, v, by simpa using hmem⟩

/-! ### The receiver's contract -/

/-- The contract on a history holds on what follows its first event. -/
theorem receiverContract_tail {pending : Bool} {e : ServiceEvent} {rest : List ServiceEvent}
    (h : receiverContract pending (e :: rest)) : ∃ later, receiverContract later rest := by
  cases e with
  | latch value => exact ⟨_, h⟩
  | block e =>
    cases e with
    | rfIsAvailable answer =>
      cases answer with
      | false => exact ⟨_, h⟩
      | true => exact ⟨_, h.2⟩
    | _ => exact ⟨_, h⟩

/-- A receiver that meets its contract finds nothing right after a reset, whatever came before (R103 clause 2). -/
theorem not_receiverContract_available_after_reset {pending : Bool} {before after : List ServiceEvent} :
    ¬ receiverContract pending
      (before ++ .block .rfResetAvailable :: .block (.rfIsAvailable true) :: after) := by
  induction before generalizing pending with
  | nil => simp [receiverContract, mayBePending]
  | cons e before ih =>
    intro h
    obtain ⟨_, hrest⟩ := receiverContract_tail h
    exact ih hrest

/-- Settles O51: an RF poll that finds a value right after the reset breaks the receiver's contract. -/
theorem selfEchoIsSuppressed : Obligations.SelfEchoIsSuppressed := by
  intro s value bits before pending hreturns
  have hsent : (transmitAction value bits s).trace = s.trace ++ [.rfSend value bits, .rfResetAvailable] :=
    congrArg State.trace (transmitAction_eq_of_sendReturns hreturns value bits)
  rcases execRfPoll_cases (transmitAction value bits s) with ⟨ha, hpoll⟩ | ⟨ha, hpoll⟩ <;>
    refine ⟨_, _, rfl, hpoll, fun hcontract => ?_⟩
  · rw [askRfIsAvailable_trace, ha, hsent, List.append_assoc]
    rfl
  · obtain ⟨v, htrace⟩ := reported_trace ha
    rw [hsent, List.append_assoc] at htrace
    rw [newEvents_of_append htrace] at hcontract
    refine absurd ?_ (not_receiverContract_available_after_reset (pending := pending)
      (before := before ++ [.block (.rfSend value bits)])
      (after := quietHistory [.rfGetValue v, .hostWrite (reportBytes v), .rfResetAvailable]))
    rw [List.append_assoc]
    exact hcontract

/-- The receiver's mode after two traces in turn. -/
theorem receiverMode_append (mode : Option Bool) (es fs : List Event) :
    receiverMode mode (es ++ fs) = receiverMode (receiverMode mode es) fs := by
  induction es generalizing mode with
  | nil => rfl
  | cons e es ih => cases e <;> exact ih _

/-- SET_RX sets the receiver's mode by its flag, whatever the mode was (R76, R103 clause 1). -/
theorem receiverModeNow_receiverModeAction (on : Bool) (s : State) :
    receiverModeNow (receiverModeAction on s) = some on := by
  rw [receiverModeNow, receiverModeAction_eq, emit_trace, receiverMode_append]
  cases on <;> rfl

/-- Settles O53: both set the mode that the flag says. -/
theorem repeatedSetRxKeepsTheReceiverMode : Obligations.RepeatedSetRxKeepsTheReceiverMode := by
  intro s flag p q
  refine ⟨_, _, rfl, rfl, ?_, receiverModeNow_receiverModeAction _ s, ?_, ?_⟩
  · rw [receiverModeAction_eq, receiverModeAction_eq, newEvents_of_append (List.append_assoc s.trace [_] [_])]
    cases flagOn flag <;> rfl
  · rw [receiverModeNow_receiverModeAction, receiverModeNow_receiverModeAction]
  · exact (sameReader_receiverModeAction _ s).trans (sameReader_receiverModeAction _ _)

end Sys2Proof.Machine
end

section
/-!
PROOFS. The outbound encoder (spec/42_outbound_encoder.md R84 to R87): an RF poll's reset and the receiver's contract
(spec/60_exceptions.md R103), and what RF polls leave to the inbound path.
-/

namespace Sys2Proof.Machine

/-! ### A poll after a reset (R85) -/

/-- If the events since `s` end with a reset, a poll of a receiver that meets its contract finds nothing (R103 clause 2). -/
theorem rfPoll_after_reset {s t : State} {es : List Event} (ht : t.trace = s.trace ++ (es ++ [.rfResetAvailable])) :
    ∃ u, exec .rfPoll t = .next u ∧ ∀ (before : List ServiceEvent) (pending : Bool),
      receiverContract pending (before ++ quietHistory (newEvents s u)) → u.trace = t.trace ++ [.rfIsAvailable false] := by
  rcases execRfPoll_cases t with ⟨ha, hpoll⟩ | ⟨ha, hpoll⟩ <;> refine ⟨_, hpoll, fun before pending hcontract => ?_⟩
  · rw [askRfIsAvailable_trace, ha]
  · obtain ⟨v, htrace⟩ := reported_trace ha
    rw [ht, List.append_assoc] at htrace
    rw [newEvents_of_append htrace] at hcontract
    refine absurd ?_ (not_receiverContract_available_after_reset (pending := pending)
      (before := before ++ quietHistory es)
      (after := quietHistory [.rfGetValue v, .hostWrite (reportBytes v), .rfResetAvailable]))
    simpa [quietHistory] using hcontract

/-- An RF poll that finds a value adds the query, the value, its report and, last, the reset (R84). -/
theorem rfPoll_reports {s : State} (havailable : (s.env.available.take Config.freeAvailable).1 = true) {v : Word}
    (hv : (s.env.value.take Config.freeValue).1 = v) :
    ∃ t, exec .rfPoll s = .next t ∧ t.trace = s.trace ++
      ([.rfIsAvailable true, .rfGetValue v, .hostWrite (reportBytes v)] ++ [.rfResetAvailable]) :=
  ⟨_, (rfPollReportsAnAvailableValue s).2 havailable v hv, rfl⟩

/-- Settles O52: the first poll ends with its reset. -/
theorem reportIsNotRepeated : Obligations.ReportIsNotRepeated := by
  intro s before pending havailable
  obtain ⟨t, hreport, htrace⟩ := rfPoll_reports havailable rfl
  obtain ⟨u, hagain, hnothing⟩ := rfPoll_after_reset htrace
  refine ⟨t, u, hreport, hagain, fun hcontract => ⟨?_, hnothing before pending hcontract⟩⟩
  rw [newEvents_of_append htrace]
  rfl

/-! ### A byte step as a function of the state -/

/-- What a byte step does: it takes the `HostRead`'s answer, and receives the byte if there is one (R59). -/
def afterByteStep (s : State) : State :=
  match hostAnswer s with
  | none => afterHostRead s
  | some b => receive b (afterHostRead s)

theorem step_byteStep {s : State} (hl : s.loop = .polling) (hle : s.ind ≤ s.len)
    (hk : (takeStepKind s).1 = .byteStep) : step s = .next (afterByteStep s) := by
  unfold afterByteStep
  cases ha : hostAnswer s with
  | none => exact step_noByte hl ⟨hk, ha⟩
  | some b => exact step_receive hl hle ⟨hk, ha⟩

/-- A byte step takes one kind of step, its own (R59, R88). -/
theorem afterByteStep_schedule (s : State) : (afterByteStep s).env.schedule = (takeStepKind s).2.env.schedule := by
  unfold afterByteStep
  cases hostAnswer s with
  | none => rfl
  | some b => exact (receive_env b (afterHostRead s)).1

/-! ### RF polls and the inbound path (R87, R89) -/

/-- Two states that no byte step can tell apart: they agree on what the inbound path looks at and did, and on the answers to
`HostRead` to come. -/
structure SameInbound (s u : State) : Prop extends AgreeOn Event.isInbound s u where
  host : s.env.host = u.env.host

namespace SameInbound
variable {s u : State}

theorem trans {t : State} (h : SameInbound s t) (h' : SameInbound t u) : SameInbound s u :=
  ⟨h.toAgreeOn.trans h'.toAgreeOn, h.host.trans h'.host⟩

theorem hostAnswer (h : SameInbound s u) : hostAnswer s = hostAnswer u :=
  congrArg (fun q => (q.take Config.freeHostRead).1) h.host

theorem afterHostRead (h : SameInbound s u) : SameInbound (afterHostRead s) (afterHostRead u) :=
  { h with
    trace := by simp [h.trace, h.hostAnswer]
    host := congrArg (fun q => (q.take Config.freeHostRead).2) h.host }

theorem receive (h : SameInbound s u) (b : Byte) : SameInbound (receive b s) (receive b u) :=
  ⟨h.toAgreeOn.receive b, (receive_env b s).2.trans (h.host.trans (receive_env b u).2.symm)⟩

theorem afterByteStep (h : SameInbound s u) : SameInbound (afterByteStep s) (afterByteStep u) := by
  simp only [Machine.afterByteStep, h.hostAnswer]
  cases Machine.hostAnswer u with
  | none => exact h.afterHostRead
  | some b => exact h.afterHostRead.receive b

end SameInbound

/-- An RF poll takes its kind of step, and leaves all that the inbound path looks at (R87). -/
theorem step_rfPoll_sameInbound {s : State} (hl : s.loop = .polling) (hk : (takeStepKind s).1 = .rfPoll) :
    ∃ t, step s = .next t ∧ t.env.schedule = (takeStepKind s).2.env.schedule ∧ SameInbound t s := by
  rcases execRfPoll_cases (takeStepKind s).2 with ⟨-, hpoll⟩ | ⟨-, hpoll⟩ <;>
    exact ⟨_, (step_rfPoll hl hk).trans hpoll, rfl, ⟨rfl, rfl, rfl, rfl, rfl, by simp [Event.isInbound]⟩, rfl⟩

/-- Under any order of steps, a run and the run of its byte steps alone end in states no byte step can tell apart (R87). -/
theorem run_sameInbound {s u : State} {kinds : List StepKind} (hinv : ReaderInv s) (h : SameInbound s u)
    (hs : s.env.schedule.listed = kinds) (hu : u.env.schedule.listed = kinds.filter (· = .byteStep)) :
    ∃ t v, Sys2Proof.core.run kinds.length s = .next t ∧
      Sys2Proof.core.run (kinds.filter (· = .byteStep)).length u = .next v ∧ SameInbound t v := by
  induction kinds generalizing s u with
  | nil => exact ⟨s, u, rfl, rfl, h⟩
  | cons kind kinds ih =>
    cases hl : s.loop with
    | sendPending => exact ⟨s, u, run_sendPending hl _, run_sendPending (h.loop.symm.trans hl) _, h⟩
    | polling =>
      have hkind := takeStepKind_of_listed hs
      have hrest : (takeStepKind s).2.env.schedule.listed = kinds := by rw [hkind]; rfl
      cases kind with
      | rfPoll =>
        obtain ⟨s', hstep, hschedule, hsame⟩ := step_rfPoll_sameInbound hl (congrArg Prod.fst hkind)
        obtain ⟨t, v, ht, hv, hend⟩ := ih (stepKeepsTheReaderInvariant _ _ hinv hstep) (hsame.trans h)
          (hschedule ▸ hrest) hu
        exact ⟨t, v, (run_succ hstep).trans ht, hv, hend⟩
      | byteStep =>
        have hkindU := takeStepKind_of_listed (s := u) hu
        have hrestU : (takeStepKind u).2.env.schedule.listed = kinds.filter (· = .byteStep) := by rw [hkindU]; rfl
        have hle := hinv.ind_le_len hl
        have hstep := step_byteStep hl hle (congrArg Prod.fst hkind)
        have hstepU := step_byteStep (h.loop.symm.trans hl) (h.ind ▸ h.len ▸ hle) (congrArg Prod.fst hkindU)
        obtain ⟨t, v, ht, hv, hend⟩ := ih (stepKeepsTheReaderInvariant _ _ hinv hstep) h.afterByteStep
          (afterByteStep_schedule s ▸ hrest) (afterByteStep_schedule u ▸ hrestU)
        exact ⟨t, v, (run_succ hstep).trans ht, (run_succ hstepU).trans hv, hend⟩

/-- Settles O46: the two runs start in states that differ only in the order of steps. -/
theorem rfPollsDoNotDisturbTheInboundPath : Obligations.RfPollsDoNotDisturbTheInboundPath := by
  intro s kinds hinv
  have hstart : SameInbound (s.withSchedule kinds) (s.withSchedule (kinds.filter (· = .byteStep))) :=
    ⟨⟨rfl, rfl, rfl, rfl, rfl, rfl⟩, rfl⟩
  obtain ⟨t, u, ht, hu, h⟩ := run_sameInbound (s := s.withSchedule kinds) (hinv.congr rfl rfl rfl rfl) hstart rfl rfl
  exact ⟨t, u, ht, hu, h.ind, h.len, h.buf, h.loop, h.trace⟩

end Sys2Proof.Machine
end

section
/-!
PROOFS. The poll loop goes on for ever (spec R92, R93): in a state that meets the invariant the next step is never refused,
so a run of any length answers a next state.
-/

namespace Sys2Proof.Machine

/-- A step from a state that meets the invariant goes on: the only step that stops has `ind > len`, which R9 excludes. -/
theorem ReaderInv.step_next {s : State} (h : ReaderInv s) : ∃ t, step s = .next t ∧ ReaderInv t := by
  rcases step_result s with ⟨-, hpolling, hpast⟩ | ⟨t, hstep, hresult⟩
  · exact absurd (h.ind_le_len hpolling) (BitVec.not_le.mpr hpast)
  · exact ⟨t, hstep, hresult.readerInv h⟩

/-- Settles O16: by induction on the number of steps, each of which goes on and keeps the invariant. -/
theorem runsNeverHalt : Obligations.RunsNeverHalt := by
  intro k
  induction k with
  | zero => exact fun s hinv => ⟨s, run_zero s, hinv⟩
  | succ k ih =>
    intro s hinv
    obtain ⟨u, hstep, hinvNext⟩ := hinv.step_next
    obtain ⟨t, hrest, hinvEnd⟩ := ih u hinvNext
    exact ⟨t, (run_succ hstep).trans hrest, hinvEnd⟩

end Sys2Proof.Machine
end

section
/-!
PROOFS. A step has no fault outcome, and it stops only where `ind > len` (spec R93, R9): both are read off everything a step
can do.
-/

namespace Sys2Proof.Machine

/-- R93: whatever the state and whatever the answers, a step is refused by name or goes on; it never faults. -/
theorem step_ne_fault (s : State) (f : Fault) : step s ≠ .fault f := by
  rcases step_result s with ⟨hrefused, -⟩ | ⟨t, hnext, -⟩
  · rw [hrefused]; nofun
  · rw [hnext]; nofun

/-- R9's premise is all a step needs: the one refusal has `ind > len`. -/
theorem exists_step_next_of_ind_le_len {s : State} (hle : s.ind ≤ s.len) : ∃ t, step s = .next t := by
  rcases step_result s with ⟨-, -, hpast⟩ | ⟨t, hnext, -⟩
  · exact absurd hle (BitVec.not_le.mpr hpast)
  · exact ⟨t, hnext⟩

/-- Settles O13: a step is refused with `ind > len`, or it answers a next state. -/
theorem noStepFaultsAndStepsAreTotal : Obligations.NoStepFaultsAndStepsAreTotal :=
  fun s => ⟨step_ne_fault s, exists_step_next_of_ind_le_len⟩

end Sys2Proof.Machine
end

section
/-!
PROOFS. Hazards of the inbound path (spec R113 to R115): a parked frame takes the next bytes to arrive, whatever they are,
and fifteen bytes outside the header range always bring the reader back to IDLE.
-/

namespace Sys2Proof.Machine

/-- Settles O43: feeding the bytes leaves the reader as it was, and the bytes that a frame still needs complete it. -/
theorem parkedFrameIsCompletedByAnyBytes : Obligations.ParkedFrameIsCompletedByAnyBytes := by
  intro s p hinv hl hi hreturns hp
  obtain ⟨hw, -, -⟩ := hinv
  obtain ⟨done, hrun, hloop, -, htrace⟩ := run_completes_frame (s := s.withBytes p) (rest := []) hw hl hi hreturns hp
    ((List.append_nil _).symm ▸ fed_withByteAnswers s (p.map some))
  exact ⟨_, hrun, rfl, rfl, hloop, Memory.byteAt_nil, htrace⟩

theorem discardsOf_cons (b : Byte) (bytes : List Byte) :
    discardsOf (b :: bytes) = [.hostRead (some b), .drop (.hdrOutOfRange b)] ++ discardsOf bytes := rfl

/-- Bytes outside the header range, received while IDLE, are discarded one by one and leave the reader as it was (R64). -/
theorem run_discards {s : State} {p : List Byte} (hl : s.loop = .polling) (hidle : s.ind = s.len)
    (hp : ∀ b ∈ p, isHeader b = false) (hfed : Fed s (p.map some)) :
    ∃ t, Sys2Proof.core.run p.length s = .next t ∧ SameReader s t ∧ t.loop = .polling ∧
      t.trace = s.trace ++ discardsOf p := by
  induction p generalizing s with
  | nil => exact ⟨s, rfl, .of_fields rfl rfl rfl, hl, (List.append_nil _).symm⟩
  | cons b p ih =>
    obtain ⟨hb, htail⟩ := List.forall_mem_cons.mp hp
    obtain ⟨hn, -, hafter⟩ := Fed.next hfed
    have hstep := step_receive hl (BitVec.le_of_eq hidle) hn
    rw [receive_discard (s := afterHostRead s) hidle hb] at hstep
    obtain ⟨t, hrun, hsame, hloop, htrace⟩ :=
      ih (s := dropInput (.hdrOutOfRange b) (afterHostRead s)) hl hidle htail hafter
    refine ⟨t, (run_succ hstep).trans hrun, hsame, hloop, htrace.trans ?_⟩
    rw [dropInput_trace, afterHostRead_trace_of_nextByteIs hn, discardsOf_cons]
    simp

/-- A frame in progress takes the bytes it still needs; after them, bytes outside the header range are discarded
(R65, R64). -/
theorem run_completes_then_discards {s : State} {frame rest : List Byte} (hw : Memory.wf s.buf = true)
    (hl : s.loop = .polling) (hi : s.ind < s.len) (hreturns : SendReturns s)
    (hframe : frame.length = s.len.toNat - s.ind.toNat) (hrest : ∀ b ∈ rest, isHeader b = false)
    (hfed : Fed s ((frame ++ rest).map some)) :
    ∃ t, Sys2Proof.core.run (frame ++ rest).length s = .next t ∧ t.ind = 0 ∧ t.len = 0 ∧ t.loop = .polling ∧
      t.trace = s.trace ++ (readsOf frame ++ [.dispatch s.len (frameBytes s s.ind ++ frame)] ++
        frameEvents (frameBytes s s.ind ++ frame) true) ++ discardsOf rest := by
  rw [List.map_append] at hfed
  obtain ⟨done, hcomplete, hloop, hafter, htrace⟩ := run_completes_frame hw hl hi hreturns hframe hfed
  obtain ⟨t, hdiscard, ⟨hind, hlen, -⟩, hpolling, hdrops⟩ := run_discards (s := clearReader done) hloop rfl hrest hafter
  refine ⟨t, ?_, hind, hlen, hpolling, ?_⟩
  · rw [List.length_append, run_add hcomplete, hdiscard]
  · rw [hdrops, clearReader_trace, htrace]
    simp

/-- Settles O44: the frame in progress, if there is one, takes the first bytes, and IDLE discards the others. -/
theorem fifteenNonHeaderBytesResynchronise : Obligations.FifteenNonHeaderBytesResynchronise := by
  intro s p hinv hl hreturns hlength hp
  obtain ⟨hw, hclean, -⟩ := hinv
  obtain ⟨hle, -, hempty⟩ := hclean hl
  have hfed := fed_withByteAnswers s (p.map some)
  by_cases hi : s.ind < s.len
  · rw [if_pos hi, ← hlength]
    have hframe : (p.take (s.len.toNat - s.ind.toNat)).length = s.len.toNat - s.ind.toNat := by
      have hfits := s.len.isLt
      rw [List.length_take, hlength]
      omega
    have hsplit := List.take_append_drop (s.len.toNat - s.ind.toNat) p
    obtain ⟨t, hrun, hend⟩ := run_completes_then_discards (s := s.withBytes p) hw hl hi hreturns hframe
      (fun b hb => hp b (List.mem_of_mem_drop hb)) (by rwa [hsplit])
    rw [hsplit] at hrun
    exact ⟨t, hrun, hend⟩
  · have hidle : s.ind = s.len := BitVec.le_antisymm hle (BitVec.not_lt.mp hi)
    obtain ⟨t, hrun, ⟨hind, hlen, -⟩, hpolling, htrace⟩ := run_discards (s := s.withBytes p) hl hidle hp hfed
    refine ⟨t, hlength ▸ hrun, hind.trans (hidle.trans (hempty hidle)), hlen.trans (hempty hidle), hpolling, ?_⟩
    rw [if_neg hi, hidle, Nat.sub_self, List.append_nil]
    exact htrace

end Sys2Proof.Machine
end
